-- ==== Sys2Proof/Word.lean ====
section
/-!
DEFINITION. The words of the block: a byte, and the two port words.
All data values are bytes (spec/00_scope.md R6); a command word has 40 bits
(spec/30_encoding.md R61), an event word and a response word have 10 (R63, R64).
-/

namespace Sys2Proof

/-- An unsigned 8-bit value, bit 7 the most significant (00_scope R6, 20_memory R44). -/
abbrev Byte := BitVec 8

/-- The command word `CW[39:0]` of the main port (30_encoding R61). -/
abbrev CommandWord := BitVec 40

/-- The event word `EW[9:0]` of the line port (30_encoding R63). -/
abbrev EventWord := BitVec 10

/-- The response word `RW[9:0]` of the main port (30_encoding R64). -/
abbrev ResponseWord := BitVec 10

end Sys2Proof
end

