-- ==== Sys2Proof/Config.lean ====
section
/-!
DEFINITION. The parameters of an instance: the capacities `N_RX` and `N_TX`
(spec/00_scope.md R4, spec/92_eei_decisions.md D6: OPEN, any positive integers,
independent, not necessarily powers of two).

The capacities are carried beside each queue in State, where every operation reads
them and none changes them, so a statement about all states is a statement about all
capacities. Only State.reset needs one pair of numbers; they stand here.
-/

namespace Sys2Proof.Config

/-- `N_RX` of the instance State.reset starts (DESIGN CHOICE, log 1; unsafe: the spec
leaves it open, so a claim about State.reset alone is about this one instance). -/
def nRx : Nat := 8

/-- `N_TX` of the instance State.reset starts (DESIGN CHOICE, log 1; unsafe). -/
def nTx : Nat := 8

end Sys2Proof.Config
end

