-- ==== Sys2Proof/Syntax.lean ====
section
/-!
DEFINITION. The ten operations (spec/30_encoding.md R66), the words the two ports
carry (R60), the fields of a word (R61, R63) and the reasons a word is reserved (R67).
-/

namespace Sys2Proof

/-- The queue operand `q` (30_encoding R61, 40_byte_queue R80): `rx` is RXQ, the inbound
queue, q = 0; `tx` is TXQ, the outbound queue, q = 1. -/
inductive QSel where
  | rx
  | tx
deriving DecidableEq, Repr

/-- The two ports (30_encoding R60). The main port belongs to the main context, the line
port to the interrupt context; neither agent can issue the other's operations. -/
inductive Port where
  | main
  | line
deriving DecidableEq, Repr

/-- The ten operations, one constructor per row of spec/opcode_table.json. Every operand
is a byte or a queue select (30_encoding R62), so every term is well formed: the types
admit exactly the operand values the encoding admits. -/
inductive Instr where
  /-- `QINIT q`, 40_byte_queue R82. -/
  | qinit (q : QSel)
  /-- `QPUT q, b0`, 40_byte_queue R84. -/
  | qput (q : QSel) (b0 : Byte)
  /-- `QGET q`, 40_byte_queue R88. -/
  | qget (q : QSel)
  /-- `RECVB`, 41_serial_link R102. -/
  | recvb
  /-- `SENDB b0`, 41_serial_link R104. -/
  | sendb (b0 : Byte)
  /-- `TRYRX`, 42_packet_protocol R122. -/
  | tryrx
  /-- `SEND b0, b1, b2, b3`, 42_packet_protocol R130. -/
  | send (b0 b1 b2 b3 : Byte)
  /-- `RXRDY d`, 41_serial_link R107. -/
  | rxrdy (d : Byte)
  /-- `TXEMP`, 41_serial_link R110. -/
  | txemp
  /-- `RXTX d`, 41_serial_link R112. -/
  | rxtx (d : Byte)
deriving DecidableEq, Repr

/-- The port an operation is issued on (30_encoding R66). -/
def Instr.port : Instr → Port
  | .qinit _ | .qput _ _ | .qget _ | .recvb | .sendb _ | .tryrx | .send _ _ _ _ => .main
  | .rxrdy _ | .txemp | .rxtx _ => .line

/-- The mnemonic of the operation's row in spec/opcode_table.json. -/
def Instr.mnemonic : Instr → String
  | .qinit _ => "QINIT"
  | .qput _ _ => "QPUT"
  | .qget _ => "QGET"
  | .recvb => "RECVB"
  | .sendb _ => "SENDB"
  | .tryrx => "TRYRX"
  | .send _ _ _ _ => "SEND"
  | .rxrdy _ => "RXRDY"
  | .txemp => "TXEMP"
  | .rxtx _ => "RXTX"

/-- A word presented on a port (30_encoding R60): the port it arrives on gives its format
and its length (R68). -/
inductive PortWord where
  | command (w : CommandWord)
  | event (w : EventWord)
deriving DecidableEq, Repr

/-- The port a word is presented on. -/
def PortWord.port : PortWord → Port
  | .command _ => .main
  | .event _ => .line

/-- The fields of a command word (30_encoding R61). -/
@[ext] structure CommandFields where
  op : BitVec 4
  q : BitVec 1
  rsv : BitVec 3
  b0 : Byte
  b1 : Byte
  b2 : Byte
  b3 : Byte
deriving DecidableEq, Repr

/-- The fields of an event word (30_encoding R63). -/
@[ext] structure EventFields where
  txe : BitVec 1
  rxr : BitVec 1
  d : Byte
deriving DecidableEq, Repr

/-- Why a word is a reserved encoding (30_encoding R67), in the order the decoder tests
(R68). -/
inductive Reserved where
  /-- Main port: `rsv != 000`. -/
  | rsvNotZero
  /-- Main port: `op = 0x0` or `op = 0x8` to `0xF`. -/
  | unassignedOpcode
  /-- Main port: `q = 1` in RECVB, SENDB, TRYRX, SEND. -/
  | queueBitNotZero
  /-- Main port: a non-zero operand byte the operation does not use. -/
  | unusedByteNotZero
  /-- Line port: `{txe, rxr} = 00`, not an invocation. -/
  | noCondition
  /-- Line port: TXEMP with `d != 0x00`. -/
  | dataNotZero
deriving DecidableEq, Repr

end Sys2Proof
end

