-- ==== Sys2Proof/WellFormed.lean ====
section
/-!
DEFINITION. Which port words are well formed: those that some row of the opcode map
selects (spec/30_encoding.md R66: "a word w selects the row iff (w AND mask) == match").
Every other word is a reserved encoding (R67).

This is the table's own description of an operation's words, by match and mask over the
whole word. The decoder (Decode.lean) is written from the fields (R61, R63, R68) and does
not use it, so that the two can be compared.
-/

namespace Sys2Proof

/-- A row of the opcode map for a word of `n` bits. -/
structure Row (n : Nat) where
  mnemonic : String
  matchBits : BitVec n
  mask : BitVec n
deriving DecidableEq, Repr

/-- `(w AND mask) == match`. -/
def Row.selects {n : Nat} (r : Row n) (w : BitVec n) : Bool :=
  w &&& r.mask == r.matchBits

/-- The seven rows of the main port (30_encoding R66). -/
def mainRows : List (Row 40) :=
  [ ⟨"QINIT", 0x1000000000#40, 0xF7FFFFFFFF#40⟩,
    ⟨"QPUT",  0x2000000000#40, 0xF700FFFFFF#40⟩,
    ⟨"QGET",  0x3000000000#40, 0xF7FFFFFFFF#40⟩,
    ⟨"RECVB", 0x4000000000#40, 0xFFFFFFFFFF#40⟩,
    ⟨"SENDB", 0x5000000000#40, 0xFF00FFFFFF#40⟩,
    ⟨"TRYRX", 0x6000000000#40, 0xFFFFFFFFFF#40⟩,
    ⟨"SEND",  0x7000000000#40, 0xFF00000000#40⟩ ]

/-- The three rows of the line port (30_encoding R66). -/
def lineRows : List (Row 10) :=
  [ ⟨"RXRDY", 0x100#10, 0x300#10⟩,
    ⟨"TXEMP", 0x200#10, 0x3FF#10⟩,
    ⟨"RXTX",  0x300#10, 0x300#10⟩ ]

/-- The mnemonics of the rows that select a word. -/
def PortWord.selected : PortWord → List String
  | .command w => (mainRows.filter fun r => r.selects w).map Row.mnemonic
  | .event w => (lineRows.filter fun r => r.selects w).map Row.mnemonic

/-- Some row selects the word; a word that is not well formed is a reserved encoding. -/
def PortWord.wf (w : PortWord) : Bool :=
  !w.selected.isEmpty

end Sys2Proof
end

