-- ==== Sys2Proof/Decode.lean ====
section
/-!
DEFINITION. The decoder and the encoder (spec/30_encoding.md R61 to R68). Decoding is
total on every word of either port and rejects a reserved encoding by name; encoding is
total on operations (R68).
-/

namespace Sys2Proof

/-! ## Fields -/

/-- The slices of `CW[39:0]` (30_encoding R61). -/
def commandFields (w : CommandWord) : CommandFields where
  op := w.extractLsb' 36 4
  q := w.extractLsb' 35 1
  rsv := w.extractLsb' 32 3
  b0 := w.extractLsb' 24 8
  b1 := w.extractLsb' 16 8
  b2 := w.extractLsb' 8 8
  b3 := w.extractLsb' 0 8

/-- The slices of `EW[9:0]` (30_encoding R63). -/
def eventFields (w : EventWord) : EventFields where
  txe := w.extractLsb' 9 1
  rxr := w.extractLsb' 8 1
  d := w.extractLsb' 0 8

/-- `{op, q, rsv, b0, b1, b2, b3}`, `op` in the most significant bits (30_encoding R61). -/
def commandWord (f : CommandFields) : CommandWord :=
  f.op ++ f.q ++ f.rsv ++ f.b0 ++ f.b1 ++ f.b2 ++ f.b3

/-- `{txe, rxr, d}` (30_encoding R63). -/
def eventWord (f : EventFields) : EventWord :=
  f.txe ++ f.rxr ++ f.d

/-- The queue operand is the single bit `q` (30_encoding R62): 0 = rx, 1 = tx. -/
def selOfBit (q : BitVec 1) : QSel :=
  if q = 0#1 then .rx else .tx

/-- The bit that names a queue. -/
def bitOfSel : QSel → BitVec 1
  | .rx => 0#1
  | .tx => 1#1

/-! ## Decoding -/

/-- Accept an operation if the row's must-be-zero fields are zero (30_encoding R67, R68):
first the queue bit, where the row has no queue operand, then the unused bytes. -/
def requireZero (qBit : BitVec 1) (unused : List Byte) (i : Instr) : Except Reserved Instr :=
  if qBit ≠ 0#1 then .error .queueBitNotZero
  else if unused.all (fun b => b == 0#8) then .ok i
  else .error .unusedByteNotZero

/-- Decode the fields of a command word, in the order of 30_encoding R68. -/
def decodeCommandFields (f : CommandFields) : Except Reserved Instr :=
  if f.rsv ≠ 0#3 then .error .rsvNotZero
  else
    match f.op.toNat with
    | 1 => requireZero 0#1 [f.b0, f.b1, f.b2, f.b3] (.qinit (selOfBit f.q))
    | 2 => requireZero 0#1 [f.b1, f.b2, f.b3] (.qput (selOfBit f.q) f.b0)
    | 3 => requireZero 0#1 [f.b0, f.b1, f.b2, f.b3] (.qget (selOfBit f.q))
    | 4 => requireZero f.q [f.b0, f.b1, f.b2, f.b3] .recvb
    | 5 => requireZero f.q [f.b1, f.b2, f.b3] (.sendb f.b0)
    | 6 => requireZero f.q [f.b0, f.b1, f.b2, f.b3] .tryrx
    | 7 => requireZero f.q [] (.send f.b0 f.b1 f.b2 f.b3)
    | _ => .error .unassignedOpcode

/-- Decode the fields of an event word: `{txe, rxr}` = 01 is RXRDY, 10 is TXEMP (with
`d` = 0x00), 11 is RXTX, 00 is reserved (30_encoding R63, R67). -/
def decodeEventFields (f : EventFields) : Except Reserved Instr :=
  match f.txe.toNat, f.rxr.toNat with
  | 0, 1 => .ok (.rxrdy f.d)
  | 1, 0 => if f.d = 0#8 then .ok .txemp else .error .dataNotZero
  | 1, 1 => .ok (.rxtx f.d)
  | _, _ => .error .noCondition

/-- The decoder: total on every word of either port (30_encoding R68). -/
def decode : PortWord → Except Reserved Instr
  | .command w => decodeCommandFields (commandFields w)
  | .event w => decodeEventFields (eventFields w)

/-! ## Encoding -/

/-- The fields of a main-port operation's word: unused operand bytes are 0x00, `q` is 0
where there is no queue operand, `rsv` is 000 (30_encoding R61, R66). -/
def mainFields (op : BitVec 4) (q : BitVec 1) (b0 b1 b2 b3 : Byte) : CommandFields :=
  { op := op, q := q, rsv := 0#3, b0 := b0, b1 := b1, b2 := b2, b3 := b3 }

/-- The encoder (30_encoding R66, R68). -/
def encode : Instr → PortWord
  | .qinit q => .command (commandWord (mainFields 1#4 (bitOfSel q) 0#8 0#8 0#8 0#8))
  | .qput q b0 => .command (commandWord (mainFields 2#4 (bitOfSel q) b0 0#8 0#8 0#8))
  | .qget q => .command (commandWord (mainFields 3#4 (bitOfSel q) 0#8 0#8 0#8 0#8))
  | .recvb => .command (commandWord (mainFields 4#4 0#1 0#8 0#8 0#8 0#8))
  | .sendb b0 => .command (commandWord (mainFields 5#4 0#1 b0 0#8 0#8 0#8))
  | .tryrx => .command (commandWord (mainFields 6#4 0#1 0#8 0#8 0#8 0#8))
  | .send b0 b1 b2 b3 => .command (commandWord (mainFields 7#4 0#1 b0 b1 b2 b3))
  | .rxrdy d => .event (eventWord { txe := 0#1, rxr := 1#1, d := d })
  | .txemp => .event (eventWord { txe := 1#1, rxr := 0#1, d := 0#8 })
  | .rxtx d => .event (eventWord { txe := 1#1, rxr := 1#1, d := d })

/-! ## Words numbered as spec/opcode_table.json numbers them -/

/-- The port word that a table row of `nbits` bits with the bits `w` stands for. The table
gives a line-port row 10 bits, two bytes when counted in whole bytes, and a main-port row 40;
so up to 16 bits is the line port and more is the main port (DESIGN CHOICE, log 13). A
word with a bit beyond its port's word length is no word of that port. -/
def tableWord (nbits w : Nat) : Option PortWord :=
  if nbits ≤ 16 then
    if w < 2 ^ 10 then some (.event (BitVec.ofNat 10 w)) else none
  else
    if w < 2 ^ 40 then some (.command (BitVec.ofNat 40 w)) else none

/-- The operation the decoder reads from a table word, none where it refuses. -/
def decodeTableWord (nbits w : Nat) : Option Instr :=
  match tableWord nbits w with
  | none => none
  | some p =>
    match decode p with
    | .ok i => some i
    | .error _ => none

end Sys2Proof
end

