-- ==== Sys2Proof/Machine/State.lean ====
section
/-!
DEFINITION. The state of the block (spec/10_state.md R10, R16, R18, R21), with the
inputs and outputs of its two ports (spec/30_encoding.md R60), the ways a step can stop,
and the state after reset (R23, spec/70_reset_and_hazards.md R170).
-/

namespace Sys2Proof.Machine

/-- A queue buffer: (slot, byte) pairs, slots strictly rising. A slot that is not listed
has never been written and has no value (10_state R23, 93 U2; log 4). -/
abbrev Memory := List Host.Cell

/-- One byte queue (10_state R10): "a fixed-size array of N byte slots, plus a read index,
a write index, and a count of occupied slots". The registers are naturals with the range
invariant of R13, as R12 allows (log 2). -/
structure Queue where
  /-- `N`, the capacity: a parameter of the instance, changed by no operation (R11). -/
  cap : Nat
  /-- `Q.BUF`. -/
  buf : Memory
  /-- `Q.RD`. -/
  rd : Nat
  /-- `Q.WR`. -/
  wr : Nat
  /-- `Q.CNT`. -/
  cnt : Nat
deriving DecidableEq, Repr

/-- The five frame slots `F[0]` to `F[4]`, in slot order (10_state R16). -/
structure Frame where
  command : Byte
  parameter1 : Byte
  parameter2 : Byte
  parameter3 : Byte
  checksum : Byte
deriving DecidableEq, Repr

/-- The response of a main-port operation (30_encoding R64). `data` is absent wherever the
spec leaves it unspecified (92 D16, 93 U1; log 7). -/
structure Response where
  ill : Bool
  ok : Bool
  data : Option Byte
deriving DecidableEq, Repr

/-- The state. The fields down to `excl` are the architectural and hidden state the spec
gives the block; the last three are the model's own hold on its two ports (log 6, log 8). -/
structure State where
  /-- RXQ, the inbound queue. -/
  rxq : Queue
  /-- TXQ, the outbound queue. -/
  txq : Queue
  /-- `TXARM`: the transmit-ready interrupt is armed (10_state R19). -/
  txarm : Bool
  /-- `FCNT`, the framer's state, in {0,1,2,3,4} (R18; 93 U8 excludes 5, 6, 7 by type). -/
  fcnt : Fin 5
  /-- `F[0..4]` (R16). -/
  frame : Frame
  /-- `EXCL`, the hidden exclusion: false (released) between operations (R21; log 11). -/
  excl : Bool
  /-- Main port output: the response of the operation just executed, if it was a main-port
  operation (30_encoding R64). -/
  response : Option Response
  /-- Line port output: the byte written to the line by the operation just executed, if any
  (30_encoding R65). -/
  lineOut : Option Byte
  /-- The words still to be presented on the two ports, in their one total order
  (20_memory R50, R53; log 8). -/
  trace : List PortWord
deriving DecidableEq, Repr

/-- Why the machine stops with a fault. The hardware has none (60_exceptions R150); both are
raised by the buffer access of Machine/Ops.lean and are unreachable from reset. -/
inductive Fault where
  /-- Raised by a read of a buffer slot that nothing has written: "a read of one would be a
  bug of the model, to be treated as fault" (93 U2). Safe (log 4). -/
  | unwrittenSlot (slot : Nat)
  /-- Raised by an access to a slot number outside `[0, N)`, which does not exist (20_memory
  R40, R42). Safe (log 12). -/
  | noSuchSlot (slot : Nat)
deriving DecidableEq, Repr

/-- Why a step gives a word no meaning. -/
inductive Refusal where
  /-- Raised by exec for an operation that has no meaning in the model yet. Safe. -/
  | notModelled (mnemonic : String)
  /-- Raised by step for a reserved command word (30_encoding R67: "A model should refuse a
  trace that contains a reserved encoding"), with the reason and the response the hardware
  gives while it changes nothing. Safe (log 10). -/
  | reservedCommand (why : Reserved) (answer : Response)
  /-- Raised by step for a reserved event word; the hardware changes nothing and indicates
  nothing (30_encoding R67). Safe (log 10). -/
  | reservedEvent (why : Reserved)
  /-- Raised by step in a state whose queue registers are outside their ranges: "a state
  outside the invariant has no meaning: refuse" (93 U8). Safe (log 2). -/
  | outsideRange
deriving DecidableEq, Repr

/-- The outcomes of this machine. -/
abbrev Result := Host.Outcome State Fault Refusal

/-- A queue after reset: RD = WR = CNT = 0, no slot has a value (10_state R23). -/
def Queue.reset (cap : Nat) : Queue :=
  { cap := cap, buf := [], rd := 0, wr := 0, cnt := 0 }

/-- The frame slots after reset. The spec gives no value; 0x00 is the value the model names
(DESIGN CHOICE, log 3; unsafe). -/
def Frame.reset : Frame :=
  { command := 0#8, parameter1 := 0#8, parameter2 := 0#8, parameter3 := 0#8, checksum := 0#8 }

/-- The state after reset of an instance with capacities `nRx` and `nTx` (10_state R23,
70_reset R170). -/
def State.resetWith (nRx nTx : Nat) : State :=
  { rxq := Queue.reset nRx
    txq := Queue.reset nTx
    txarm := false
    fcnt := 0
    frame := Frame.reset
    excl := false
    response := none
    lineOut := none
    trace := [] }

/-- The machine right after reset (10_state R23), for the capacities of Config (log 1). -/
def State.reset : State := State.resetWith Config.nRx Config.nTx

end Sys2Proof.Machine
end

