-- ==== Sys2Proof/Machine/Flags.lean ====
section
/-!
DEFINITION. The flags (spec/10_state.md R19), the ranges and widths of the queue registers
(R12, R13), the status outputs (R22) and the output signals of the two ports
(spec/30_encoding.md R64, R65). All are computed from the state, without side effect.
-/

namespace Sys2Proof.Machine

/-! ## Flags and ranges -/

/-- `Q.EMPTY`: `Q.CNT == 0` (10_state R19). -/
def Queue.empty (q : Queue) : Bool := q.cnt == 0

/-- `Q.FULL`: `Q.CNT == N_Q` (10_state R19). -/
def Queue.full (q : Queue) : Bool := q.cnt == q.cap

/-- The ranges of 10_state R13: `0 <= CNT <= N`, `0 <= RD < N`, `0 <= WR < N`. They imply
`N >= 1` (00_scope R4). -/
abbrev Queue.InRange (q : Queue) : Prop :=
  q.rd < q.cap ∧ q.wr < q.cap ∧ q.cnt ≤ q.cap

/-- Both queues' registers are in their ranges (10_state R13). -/
abbrev State.InRange (s : State) : Prop :=
  s.rxq.InRange ∧ s.txq.InRange

/-! ## Register widths -/

/-- `ceil(log2(n))` for `n >= 1`. -/
def ceilLog2 (n : Nat) : Nat :=
  if n ≤ 1 then 0 else (n - 1).log2 + 1

/-- `IW(N) = max(1, ceil(log2(N)))`, the width of RD and WR (10_state R12). -/
def indexWidth (n : Nat) : Nat := max 1 (ceilLog2 n)

/-- `CW(N) = ceil(log2(N + 1))`, the width of CNT (10_state R12). -/
def countWidth (n : Nat) : Nat := ceilLog2 (n + 1)

/-! ## Status outputs (10_state R22) -/

/-- `rx_count`, `CW(N_RX)` bits. -/
def State.rxCount (s : State) : BitVec (countWidth s.rxq.cap) := BitVec.ofNat _ s.rxq.cnt

/-- `tx_count`, `CW(N_TX)` bits. -/
def State.txCount (s : State) : BitVec (countWidth s.txq.cap) := BitVec.ofNat _ s.txq.cnt

/-- `rx_empty`. -/
def State.rxEmpty (s : State) : Bool := s.rxq.empty

/-- `rx_full`. -/
def State.rxFull (s : State) : Bool := s.rxq.full

/-- `tx_empty`. -/
def State.txEmpty (s : State) : Bool := s.txq.empty

/-- `tx_full`. -/
def State.txFull (s : State) : Bool := s.txq.full

/-- `tx_armed`. -/
def State.txArmed (s : State) : Bool := s.txarm

/-- `frm_count`, 3 bits. -/
def State.frmCount (s : State) : BitVec 3 := BitVec.ofNat 3 s.fcnt.val

/-- `pkt_command`, `F[0]`. -/
def State.pktCommand (s : State) : Byte := s.frame.command

/-- `pkt_p1`, `F[1]`. -/
def State.pktP1 (s : State) : Byte := s.frame.parameter1

/-- `pkt_p2`, `F[2]`. -/
def State.pktP2 (s : State) : Byte := s.frame.parameter2

/-- `pkt_p3`, `F[3]`. -/
def State.pktP3 (s : State) : Byte := s.frame.parameter3

/-- `pkt_ackreq`, `F[0][7]`: "the high bit of `command`" (10_state R16). -/
def State.pktAckreq (s : State) : Bool := s.frame.command.getLsbD 7

/-- `pkt_code`, `F[0][6:0]` (10_state R16). -/
def State.pktCode (s : State) : BitVec 7 := s.frame.command.extractLsb' 0 7

/-! ## Port output signals -/

/-- The response word `RW = {ill, ok, data}` (30_encoding R64). Where `data` is absent its
eight bits are unspecified (93 U1): `free` stands for whatever they are. -/
def Response.word (r : Response) (free : Byte) : ResponseWord :=
  BitVec.ofBool r.ill ++ BitVec.ofBool r.ok ++ r.data.getD free

/-- `tx_valid` (30_encoding R65). -/
def State.txValid (s : State) : Bool := s.lineOut.isSome

/-- `tx_data[7:0]`, meaningful only when `tx_valid = 1` (30_encoding R65). -/
def State.txData (s : State) : Option Byte := s.lineOut

end Sys2Proof.Machine
end

