-- ==== Sys2Proof/Machine/Operands.lean ====
section
/-!
DEFINITION. The operand forms: the queue operand (spec/40_byte_queue.md R80) and the frame
slot that FCNT names (spec/10_state.md R16, R18). Byte operands are taken verbatim
(spec/30_encoding.md R62) and need no function.
-/

namespace Sys2Proof.Machine

/-- The queue a queue operand names: q = 0 is RXQ, q = 1 is TXQ (40_byte_queue R80). -/
def State.queue (s : State) : QSel → Queue
  | .rx => s.rxq
  | .tx => s.txq

/-- Replace the queue a queue operand names; the other is untouched (R80). -/
def State.setQueue (s : State) (q : QSel) (v : Queue) : State :=
  match q with
  | .rx => { s with rxq := v }
  | .tx => { s with txq := v }

/-- `F[i]` (10_state R16, 00_scope R6). -/
def Frame.get (f : Frame) : Fin 5 → Byte
  | 0 => f.command
  | 1 => f.parameter1
  | 2 => f.parameter2
  | 3 => f.parameter3
  | 4 => f.checksum

/-- `F[i] <- v`. -/
def Frame.set (f : Frame) (i : Fin 5) (v : Byte) : Frame :=
  match i with
  | 0 => { f with command := v }
  | 1 => { f with parameter1 := v }
  | 2 => { f with parameter2 := v }
  | 3 => { f with parameter3 := v }
  | 4 => { f with checksum := v }

end Sys2Proof.Machine
end

