-- ==== Sys2Proof/Machine/Ops.lean ====
section
/-!
DEFINITION. The shared operations: one byte of a buffer, the primitives PUT and GET
(spec/40_byte_queue.md R83, R87), the link's services RXSVC and TXSVC and the body of SENDB
(spec/41_serial_link.md R104, R106, R109), the framer's reaction to a byte
(spec/42_packet_protocol.md R120, R122 to R127), the end of an operation on either port,
and the fetching of the next port word.

There is no taking of an exception and no return from one: "No operation raises an
exception, traps, faults, hangs" (spec/60_exceptions.md R150), handler entry saves and masks
nothing (R157) and there is no return operation (R158). The interrupt handler's work is the
line-port operation itself.
-/

namespace Sys2Proof.Machine

/-! ## One byte of memory -/

/-- The byte of a slot, none where the slot is not listed (never written). -/
def Memory.read : Memory → Nat → Option Byte
  | [], _ => none
  | (a, v) :: m, i => if a = i then some v else Memory.read m i

/-- Store a byte in a slot, keeping the slots strictly rising. -/
def Memory.write : Memory → Nat → Byte → Memory
  | [], i, b => [(i, b)]
  | (a, v) :: m, i, b =>
    if i < a then (i, b) :: (a, v) :: m
    else if i = a then (i, b) :: m
    else (a, v) :: Memory.write m i b

/-- The canonical form: slots strictly rising. (An unlisted slot has no value, so no entry
can equal what an unlisted slot reads as.) -/
def Memory.wf : Memory → Bool
  | [] => true
  | [_] => true
  | (a, _) :: (b, v) :: m => decide (a < b) && Memory.wf ((b, v) :: m)

/-- `MemRead(Q, i, 1)` (00_scope R6). A slot outside the buffer does not exist (log 12); a
slot nothing has written has no value to read (93 U2; log 4). -/
def Queue.memRead (q : Queue) (i : Nat) : Except Fault Byte :=
  if i < q.cap then
    match q.buf.read i with
    | some b => .ok b
    | none => .error (.unwrittenSlot i)
  else .error (.noSuchSlot i)

/-- `MemWrite(Q, i, 1, b)` (00_scope R6). -/
def Queue.memWrite (q : Queue) (i : Nat) (b : Byte) : Except Fault Queue :=
  if i < q.cap then .ok { q with buf := q.buf.write i b }
  else .error (.noSuchSlot i)

/-! ## The queue primitives -/

/-- `(i + 1) mod N` (40_byte_queue R86): a modulo by N, not a bit mask. -/
def nextIndex (n i : Nat) : Nat := (i + 1) % n

/-- `init()` (40_byte_queue R82): RD, WR and CNT to 0, no slot written (R92). -/
def Queue.init (q : Queue) : Queue :=
  { q with rd := 0, wr := 0, cnt := 0 }

/-- `PUT(Q, b) -> ok` (40_byte_queue R83). The guard reads CNT only; on failure nothing
changes. -/
def Queue.put (q : Queue) (b : Byte) : Except Fault (Bool × Queue) :=
  if q.cnt < q.cap then
    match q.memWrite q.wr b with
    | .error f => .error f
    | .ok q1 => .ok (true, { q1 with wr := nextIndex q.cap q.wr, cnt := q.cnt + 1 })
  else .ok (false, q)

/-- `GET(Q) -> (ok, byte)` (40_byte_queue R87): `some v` is (1, v), `none` is (0,
unspecified). The guard reads CNT only; on failure nothing changes. -/
def Queue.get (q : Queue) : Except Fault (Option Byte × Queue) :=
  if q.cnt > 0 then
    match q.memRead q.rd with
    | .error f => .error f
    | .ok v => .ok (some v, { q with rd := nextIndex q.cap q.rd, cnt := q.cnt - 1 })
  else .ok (none, q)

/-- PUT on the queue that a queue operand names. -/
def putTo (q : QSel) (b : Byte) (s : State) : Except Fault (Bool × State) :=
  match (s.queue q).put b with
  | .error f => .error f
  | .ok (ok, v) => .ok (ok, s.setQueue q v)

/-- GET on the queue that a queue operand names. -/
def getFrom (q : QSel) (s : State) : Except Fault (Option Byte × State) :=
  match (s.queue q).get with
  | .error f => .error f
  | .ok (v, q1) => .ok (v, s.setQueue q q1)

/-! ## The serial link's services -/

/-- The body of SENDB (41_serial_link R104): PUT(TXQ, b), and TXARM <- 1 on success. -/
def sendByte (b : Byte) (s : State) : Except Fault (Bool × State) :=
  match putTo .tx b s with
  | .error f => .error f
  | .ok (true, s1) => .ok (true, { s1 with txarm := true })
  | .ok (false, s1) => .ok (false, s1)

/-- SENDB for each byte in order, whatever the earlier ones answered (42_packet_protocol
R130, R131); the answer is the conjunction of the answers. -/
def sendBytes : List Byte → State → Except Fault (Bool × State)
  | [], s => .ok (true, s)
  | b :: bs, s =>
    match sendByte b s with
    | .error f => .error f
    | .ok (r, s1) =>
      match sendBytes bs s1 with
      | .error f => .error f
      | .ok (rs, s2) => .ok (r && rs, s2)

/-- `RXSVC(d)` (41_serial_link R106): PUT(RXQ, d), result ignored. -/
def rxService (d : Byte) (s : State) : Except Fault State :=
  match putTo .rx d s with
  | .error f => .error f
  | .ok (_, s1) => .ok s1

/-- `TXSVC()` (41_serial_link R109): GET(TXQ); a byte goes to the line, an empty queue
disarms. The first component is the LineOut byte. -/
def txService (s : State) : Except Fault (Option Byte × State) :=
  match getFrom .tx s with
  | .error f => .error f
  | .ok (some v, s1) => .ok (some v, s1)
  | .ok (none, s1) => .ok (none, { s1 with txarm := false })

/-- `if TXARM == 1 then call TXSVC()` (41_serial_link R110, R112; 92 D11): with TXARM = 0
nothing happens. -/
def gatedTxService (s : State) : Except Fault (Option Byte × State) :=
  if s.txarm then txService s else .ok (none, s)

/-! ## The framer -/

/-- `CHK(a, b, c, d) = a ^ b ^ c ^ d` (42_packet_protocol R120). -/
def chk (a b c d : Byte) : Byte := a ^^^ b ^^^ c ^^^ d

/-- The validator (42_packet_protocol R120): all eight bits of `F[4]` are compared. -/
def Frame.valid (f : Frame) : Bool :=
  f.checksum == chk f.command f.parameter1 f.parameter2 f.parameter3

/-- The slide by one byte (42_packet_protocol R126): `F[0..3] <- F[1..4]`, `F[4]` keeps its
value (92 D13). -/
def Frame.slide (f : Frame) : Frame :=
  { command := f.parameter1
    parameter1 := f.parameter2
    parameter2 := f.parameter3
    parameter3 := f.checksum
    checksum := f.checksum }

/-- What the framer does with a byte it has obtained (42_packet_protocol R124 to R127): the
new FCNT, the new slots, and whether the byte completed a valid packet. -/
def acceptByte (fcnt : Fin 5) (f : Frame) (v : Byte) : Fin 5 × Frame × Bool :=
  let placed := f.set fcnt v
  if fcnt < 4 then (fcnt + 1, placed, false)
  else if placed.valid then (0, placed, true)
  else (4, placed.slide, false)

/-! ## The end of an operation -/

/-- A main-port operation ends: its response is driven, there is no line output, and the
exclusion is released (30_encoding R60, R64; 10_state R21). -/
def respond (ok : Bool) (data : Option Byte) (s : State) : State :=
  { s with response := some { ill := false, ok := ok, data := data }, lineOut := none, excl := false }

/-- A line-port operation ends: it has no response, at most one line output byte, and the
exclusion is released (30_encoding R65; 10_state R21). -/
def lineEnd (out : Option Byte) (s : State) : State :=
  { s with response := none, lineOut := out, excl := false }

/-! ## Fetching -/

/-- The next word presented and the state once it has been taken; none if no word is
presented (20_memory R50, R53). -/
def State.presented (s : State) : Option (PortWord × State) :=
  match s.trace with
  | [] => none
  | w :: ws => some (w, { s with trace := ws })

/-- Present one more word, ahead of those waiting. -/
def State.present (s : State) (w : PortWord) : State :=
  { s with trace := w :: s.trace }

/-- The hardware's response to a reserved command word: `ill = 1`, `ok = 0` (30_encoding
R67). -/
def illegalResponse : Response := { ill := true, ok := false, data := none }

/-- The refusal of a reserved word (30_encoding R67, 92 D10). -/
def refuseWord (w : PortWord) (why : Reserved) : Refusal :=
  match w with
  | .command _ => .reservedCommand why illegalResponse
  | .event _ => .reservedEvent why

end Sys2Proof.Machine
end

