-- ==== Sys2Proof/Machine/ByteQueue.lean ====
section
/-!
DEFINITION. The Byte Queue operations QINIT, QPUT, QGET (spec/40_byte_queue.md R82, R84,
R88).
-/

namespace Sys2Proof.Machine

/-- `QINIT q` (40_byte_queue R82): `ok` is always 1; TXARM, FCNT, F and the slots are kept. -/
def execQinit (q : QSel) (s : State) : Result :=
  .next (respond true none (s.setQueue q (s.queue q).init))

/-- `QPUT q, b0` (40_byte_queue R84): TXARM is not changed, even for q = tx. -/
def execQput (q : QSel) (b0 : Byte) (s : State) : Result :=
  match putTo q b0 s with
  | .error f => .fault f
  | .ok (ok, s1) => .next (respond ok none s1)

/-- `QGET q` (40_byte_queue R88): `data` is the byte of a successful get. -/
def execQget (q : QSel) (s : State) : Result :=
  match getFrom q s with
  | .error f => .fault f
  | .ok (v, s1) => .next (respond v.isSome v s1)

end Sys2Proof.Machine
end

