-- ==== Sys2Proof/Machine/PacketProtocol.lean ====
section
/-!
DEFINITION. The Packet Protocol operations TRYRX and SEND (spec/42_packet_protocol.md R122
to R127, R130 to R132).
-/

namespace Sys2Proof.Machine

/-- `TRYRX` (42_packet_protocol R122): at most one byte per call; with no byte nothing
changes and `ok = 0` (R123); `ok = 1` iff the byte completed a valid packet. -/
def execTryrx (s : State) : Result :=
  match getFrom .rx s with
  | .error f => .fault f
  | .ok (none, s1) => .next (respond false none s1)
  | .ok (some v, s1) =>
    match acceptByte s1.fcnt s1.frame v with
    | (fcnt, frame, matched) =>
      .next (respond matched none { s1 with fcnt := fcnt, frame := frame })

/-- `SEND b0, b1, b2, b3` (42_packet_protocol R130): the four bytes and their checksum, five
SENDBs in one step. -/
def execSend (b0 b1 b2 b3 : Byte) (s : State) : Result :=
  match sendBytes [b0, b1, b2, b3, chk b0 b1 b2 b3] s with
  | .error f => .fault f
  | .ok (ok, s1) => .next (respond ok none s1)

end Sys2Proof.Machine
end

