-- ==== Sys2Proof/Machine/SerialLink.lean ====
section
/-!
DEFINITION. The Serial Link operations RECVB, SENDB, RXRDY, TXEMP, RXTX
(spec/41_serial_link.md R102, R104, R107, R110, R112).
-/

namespace Sys2Proof.Machine

/-- `RECVB` (41_serial_link R102). -/
def execRecvb (s : State) : Result :=
  match getFrom .rx s with
  | .error f => .fault f
  | .ok (v, s1) => .next (respond v.isSome v s1)

/-- `SENDB b0` (41_serial_link R104). -/
def execSendb (b0 : Byte) (s : State) : Result :=
  match sendByte b0 s with
  | .error f => .fault f
  | .ok (ok, s1) => .next (respond ok none s1)

/-- `RXRDY d` (41_serial_link R107): no response, no line output; a byte that finds RXQ full
is dropped (R108). -/
def execRxrdy (d : Byte) (s : State) : Result :=
  match rxService d s with
  | .error f => .fault f
  | .ok s1 => .next (lineEnd none s1)

/-- `TXEMP` (41_serial_link R110). -/
def execTxemp (s : State) : Result :=
  match gatedTxService s with
  | .error f => .fault f
  | .ok (out, s1) => .next (lineEnd out s1)

/-- `RXTX d` (41_serial_link R112): the receive service, then, if armed, the transmit
service. -/
def execRxtx (d : Byte) (s : State) : Result :=
  match rxService d s with
  | .error f => .fault f
  | .ok s1 =>
    match gatedTxService s1 with
    | .error f => .fault f
    | .ok (out, s2) => .next (lineEnd out s2)

end Sys2Proof.Machine
end

