-- ==== Sys2Proof/Machine/Dispatch.lean ====
section
/-! DEFINITION. The dispatch: one arm per operation (spec/30_encoding.md R66). -/

namespace Sys2Proof.Machine

def exec (i : Instr) (s : State) : Host.Outcome State Fault Refusal :=
  match i with
  | .qinit q => Sys2Proof.Machine.execQinit q s
  | .qput q b0 => Sys2Proof.Machine.execQput q b0 s
  | .qget q => Sys2Proof.Machine.execQget q s
  | .recvb => Sys2Proof.Machine.execRecvb s
  | .sendb b0 => Sys2Proof.Machine.execSendb b0 s
  | .tryrx => Sys2Proof.Machine.execTryrx s
  | .send b0 b1 b2 b3 => Sys2Proof.Machine.execSend b0 b1 b2 b3 s
  | .rxrdy d => Sys2Proof.Machine.execRxrdy d s
  | .txemp => Sys2Proof.Machine.execTxemp s
  | .rxtx d => Sys2Proof.Machine.execRxtx d s

end Sys2Proof.Machine
end

