-- ==== Sys2Proof/Machine/Step.lean ====
section
/-!
DEFINITION. One step: the next word presented is decoded and executed as one atomic
transition (spec/20_memory.md R46, R53).
-/

namespace Sys2Proof.Machine

/-- A state outside the ranges of 10_state R13 has no meaning (93 U8; log 2). With no word
presented the machine idles: it "executes nothing by itself" (70_reset R171; log 8). A
reserved word is refused (30_encoding R67; log 10). -/
def step (s : State) : Host.Outcome State Fault Refusal :=
  if s.InRange then
    match s.presented with
    | none => .next s
    | some (w, s1) =>
      match decode w with
      | .ok i => exec i s1
      | .error why => .refused (refuseWord w why)
  else .refused .outsideRange

/-- The state in which the word a table row stands for is the next one presented. -/
def State.withFetchWord (s : State) (nbits w : Nat) : State :=
  match tableWord nbits w with
  | none => s
  | some p => s.present p

end Sys2Proof.Machine
end

