-- ==== Sys2Proof/Safety.lean ====
section
/-!
DEFINITION. The terms claims are stated in: the invariant of the block's reachable states
(spec/10_state.md R13, R14, R21; spec/30_encoding.md R64), the bytes a queue holds in queue
order, runs of operations with the bytes they move, the abstract block whose queues are
plain lists, and the slots an operation stores to.
-/

namespace Sys2Proof.Machine

/-! ## The invariant -/

/-- The slot of the k-th oldest byte, `(RD + k) mod N` (10_state R14). -/
def Queue.slot (q : Queue) (k : Nat) : Nat := (q.rd + k) % q.cap

/-- `WR == (RD + CNT) mod N` (10_state R14). -/
abbrev Queue.Linked (q : Queue) : Prop := q.wr = q.slot q.cnt

/-- Every occupied slot has been written (10_state R14). -/
abbrev Queue.OccupiedWritten (q : Queue) : Prop :=
  ∀ k, k < q.cnt → (q.buf.read (q.slot k)).isSome = true

/-- The buffer is in canonical form and lists only slots in `[0, N)` (20_memory R40). -/
abbrev Queue.BufferOk (q : Queue) : Prop :=
  q.buf.wf = true ∧ ∀ c ∈ q.buf, c.1 < q.cap

/-- The invariant of one queue. -/
abbrev Queue.Inv (q : Queue) : Prop :=
  q.InRange ∧ q.Linked ∧ q.OccupiedWritten ∧ q.BufferOk

/-- What the response port can show (30_encoding R64; 95 V4): `ill` and `ok` never together,
no `data` without `ok`. -/
def Response.legal (r : Response) : Bool :=
  !(r.ill && r.ok) && (r.ok || r.data.isNone)

/-- What the two output ports can show between operations: at most one of them was driven
(30_encoding R60, R65), and the response is a legal one. -/
def State.portsLegal (s : State) : Bool :=
  match s.response with
  | none => true
  | some r => r.legal && s.lineOut.isNone

/-- The invariant of the block between operations. FCNT is in 0 to 4 by type (10_state R18). -/
abbrev State.Inv (s : State) : Prop :=
  s.rxq.Inv ∧ s.txq.Inv ∧ s.excl = false ∧ s.portsLegal = true

/-! ## What a queue holds -/

/-- The bytes of the occupied slots, oldest first (10_state R14). -/
def Queue.contents (q : Queue) : List Byte :=
  (List.range q.cnt).filterMap fun k => q.buf.read (q.slot k)

/-- The free slots of a queue, `N - CNT` (42_packet_protocol R131). -/
def Queue.free (q : Queue) : Nat := q.cap - q.cnt

/-- A queue after bytes have been put into it one after another, each stored at the write
index, which steps modulo N, and counted (40_byte_queue R83, where there is room). -/
def Queue.pushed : List Byte → Queue → Queue
  | [], q => q
  | b :: bs, q =>
    Queue.pushed bs
      { q with buf := q.buf.write q.wr b, wr := (q.wr + 1) % q.cap, cnt := q.cnt + 1 }

/-! ## Runs -/

/-- A run of operations, stopping at the first that does not answer a next state: "the
result of applying them one at a time in that order" (20_memory R50). -/
def runOps : List Instr → State → Result
  | [], s => .next s
  | i :: is, s =>
    match exec i s with
    | .next s1 => runOps is s1
    | .fault f => .fault f
    | .refused r => .refused r

/-- The same operation a number of times. -/
def runTimes (i : Instr) (n : Nat) (s : State) : Result :=
  runOps (List.replicate n i) s

/-- Does the response of the operation just executed say `ok = 1`? -/
def State.answeredOk (s : State) : Bool :=
  match s.response with
  | some r => r.ok
  | none => false

/-- The frame of a packet: its four bytes and their checksum, in wire order (30_encoding
R72, 42_packet_protocol R130). -/
def wireFrame (b0 b1 b2 b3 : Byte) : List Byte := [b0, b1, b2, b3, b0 ^^^ b1 ^^^ b2 ^^^ b3]

/-- The bytes an operation, executed in a state, puts successfully into a queue, in order
(20_memory R41, 40_byte_queue R91). -/
def bytesPut (q : QSel) (i : Instr) (s : State) : List Byte :=
  match i with
  | .qput q1 b => if q1 = q then [b].take (s.queue q).free else []
  | .sendb b => if q = .tx then [b].take s.txq.free else []
  | .send b0 b1 b2 b3 => if q = .tx then (wireFrame b0 b1 b2 b3).take s.txq.free else []
  | .rxrdy d | .rxtx d => if q = .rx then [d].take s.rxq.free else []
  | .qinit _ | .qget _ | .recvb | .tryrx | .txemp => []

/-- The bytes an operation got from a queue, as its outputs or the framer show them after it:
`data` of a response, the byte on the line, the byte TRYRX placed in the slot FCNT named
(20_memory R41, 40_byte_queue R91). -/
def bytesGot (q : QSel) (i : Instr) (s s1 : State) : List Byte :=
  match i with
  | .qget q1 => if q1 = q then (s1.response.bind Response.data).toList else []
  | .recvb => if q = .rx then (s1.response.bind Response.data).toList else []
  | .tryrx => if q = .rx ∧ s.rxq.cnt ≠ 0 then [s1.frame.get s.fcnt] else []
  | .txemp | .rxtx _ => if q = .tx then s1.lineOut.toList else []
  | .qinit _ | .qput _ _ | .sendb _ | .send _ _ _ _ | .rxrdy _ => []

/-- A run, with the bytes it put into a queue and the bytes it got from it, in order. -/
def runFlow (q : QSel) : List Instr → State → Option (List Byte × List Byte × State)
  | [], s => some ([], [], s)
  | i :: is, s =>
    match exec i s with
    | .next s1 =>
      match runFlow q is s1 with
      | some (ps, gs, s2) => some (bytesPut q i s ++ ps, bytesGot q i s s1 ++ gs, s2)
      | none => none
    | .fault _ => none
    | .refused _ => none

/-- No TRYRX of a run obtains a byte: each one finds RXQ empty (42_packet_protocol R128). -/
def noByteTaken : List Instr → State → Bool
  | [], _ => true
  | i :: is, s =>
    (i ≠ .tryrx || s.rxq.cnt == 0) &&
      match exec i s with
      | .next s1 => noByteTaken is s1
      | .fault _ => true
      | .refused _ => true

/-- One turn of a loop-back wire: a transmit event, a receive event carrying its byte back,
and a poll (42_packet_protocol R133, R136). Without a line byte there is nothing to carry. -/
def loopBack (s : State) : Result :=
  match exec .txemp s with
  | .next s1 =>
    match s1.lineOut with
    | some v => runOps [.rxrdy v, .tryrx] s1
    | none => .next s1
  | .fault f => .fault f
  | .refused r => .refused r

/-- A number of turns of the loop-back wire. -/
def loopBackTimes : Nat → State → Result
  | 0, s => .next s
  | n + 1, s =>
    match loopBack s with
    | .next s1 => loopBackTimes n s1
    | .fault f => .fault f
    | .refused r => .refused r

/-! ## The sliding window (42_packet_protocol R134) -/

/-- The window of four bytes that ends at the n-th byte of a stream, and the byte that tests
it, satisfy the checksum relation: `s(n) = s(n-4) ^ s(n-3) ^ s(n-2) ^ s(n-1)`, the bytes
numbered from 1. -/
abbrev windowMatches (bs : List Byte) (n : Nat) : Prop :=
  5 ≤ n ∧ bs.getD (n - 1) 0#8 =
    bs.getD (n - 5) 0#8 ^^^ bs.getD (n - 4) 0#8 ^^^ bs.getD (n - 3) 0#8 ^^^ bs.getD (n - 2) 0#8

/-! ## Which slots of a buffer an operation stores to -/

/-- The slots that the next `n` puts on a queue store to: the write index and its
successors, as many as there are free slots (40_byte_queue R83, 42_packet_protocol R131). -/
def putSlots (n : Nat) (q : Queue) : List Nat :=
  (List.range (min n q.free)).map fun k => (q.wr + k) % q.cap

/-- The slots of a queue's buffer an operation stores to (20_memory R41). -/
def storedSlots (i : Instr) (q : QSel) (s : State) : List Nat :=
  match i with
  | .qput q1 _ => if q1 = q then putSlots 1 (s.queue q) else []
  | .sendb _ => if q = .tx then putSlots 1 s.txq else []
  | .send _ _ _ _ => if q = .tx then putSlots 5 s.txq else []
  | .rxrdy _ | .rxtx _ => if q = .rx then putSlots 1 s.rxq else []
  | .qinit _ | .qget _ | .recvb | .tryrx | .txemp => []

/-! ## The abstract block -/

/-- A queue as what its user sees of it: a capacity and the bytes in it, oldest first. -/
structure Fifo where
  cap : Nat
  items : List Byte
deriving DecidableEq, Repr

/-- The block with plain lists for queues: no index, no slot, no stale byte. -/
structure AbsState where
  rx : Fifo
  tx : Fifo
  txarm : Bool
  fcnt : Fin 5
  frame : Frame
  response : Option Response
  lineOut : Option Byte
  trace : List PortWord
deriving DecidableEq, Repr

/-- The abstract queue a queue operand names. -/
def AbsState.queue (a : AbsState) : QSel → Fifo
  | .rx => a.rx
  | .tx => a.tx

/-- Replace the items of the abstract queue a queue operand names. -/
def AbsState.setItems (a : AbsState) (q : QSel) (items : List Byte) : AbsState :=
  match q with
  | .rx => { a with rx := { a.rx with items := items } }
  | .tx => { a with tx := { a.tx with items := items } }

/-- Append as many of the bytes as fit, in order. -/
def Fifo.append (f : Fifo) (bs : List Byte) : List Byte :=
  f.items ++ bs.take (f.cap - f.items.length)

/-- The response of a main-port operation. -/
def AbsState.answer (a : AbsState) (ok : Bool) (data : Option Byte) : AbsState :=
  { a with response := some { ill := false, ok := ok, data := data }, lineOut := none }

/-- Send bytes: append what fits, arm if any did, succeed if all did. -/
def AbsState.sendAll (a : AbsState) (bs : List Byte) : AbsState :=
  { a.setItems .tx (a.tx.append bs) with
    txarm := a.txarm || decide (0 < a.tx.cap - a.tx.items.length) }.answer
    (decide (bs.length ≤ a.tx.cap - a.tx.items.length)) none

/-- The transmit half of the interrupt handling, under its gate, with what it puts on the
line. -/
def AbsState.transmit (a : AbsState) : AbsState :=
  match a.txarm, a.tx.items with
  | false, _ => { a with response := none, lineOut := none }
  | true, [] => { a with txarm := false, response := none, lineOut := none }
  | true, v :: vs => { a.setItems .tx vs with response := none, lineOut := some v }

/-- What each operation does to the abstract block, written from the operation rules. -/
def absExec : Instr → AbsState → AbsState
  | .qinit q, a => (a.setItems q []).answer true none
  | .qput q b, a =>
    (a.setItems q ((a.queue q).append [b])).answer
      (decide ((a.queue q).items.length < (a.queue q).cap)) none
  | .qget q, a =>
    match (a.queue q).items with
    | [] => a.answer false none
    | v :: vs => (a.setItems q vs).answer true (some v)
  | .recvb, a =>
    match a.rx.items with
    | [] => a.answer false none
    | v :: vs => (a.setItems .rx vs).answer true (some v)
  | .sendb b, a => a.sendAll [b]
  | .tryrx, a =>
    match a.rx.items with
    | [] => a.answer false none
    | v :: vs =>
      let r := acceptByte a.fcnt a.frame v
      { a.setItems .rx vs with fcnt := r.1, frame := r.2.1 }.answer r.2.2 none
  | .send b0 b1 b2 b3, a => a.sendAll (wireFrame b0 b1 b2 b3)
  | .rxrdy d, a => { a.setItems .rx (a.rx.append [d]) with response := none, lineOut := none }
  | .txemp, a => a.transmit
  | .rxtx d, a => (a.setItems .rx (a.rx.append [d])).transmit

/-- A queue seen as a list. -/
def Queue.abs (q : Queue) : Fifo := { cap := q.cap, items := q.contents }

/-- The block seen as the abstract block: it forgets the indices, the slots and EXCL. -/
def State.abs (s : State) : AbsState :=
  { rx := s.rxq.abs
    tx := s.txq.abs
    txarm := s.txarm
    fcnt := s.fcnt
    frame := s.frame
    response := s.response
    lineOut := s.lineOut
    trace := s.trace }

/-! ## Frame slots the framer holds no byte in -/

/-- Two states that differ at most in frame slots the framer does not hold a byte in: the
slots from FCNT on (42_packet_protocol R129). -/
def SameButUnheldSlots (s t : State) : Prop :=
  t = { s with frame := t.frame } ∧ ∀ k : Fin 5, k < s.fcnt → s.frame.get k = t.frame.get k

end Sys2Proof.Machine
end

