-- ==== Sys2Proof/Certificates/Slice0/Obligations.lean ====
section
/-!
DEFINITION. The statements for the provers. Each docstring names the rule of spec/ it
formalises, or says on which section, decision or log entry it rests.

In every statement that gives a whole next state, the fields `response`, `lineOut` and `excl`
are the model's hold on the ports' outputs and on EXCL (log 6, log 7, log 11: the model's
choice); the other fields are what the rule says.
-/

open Sys2Proof Sys2Proof.Machine

/-! ## Encoding -/

/-- 30_encoding section 5 (a derived rule): decoding what the encoder writes gives the
operation back, for every operation and every operand value, and encoding what the decoder
reads gives the word back. -/
def Obligations.DecodeEncodeRoundTrip : Prop :=
  (∀ i : Instr, decode (encode i) = .ok i) ∧
  (∀ (w : PortWord) (i : Instr), decode w = .ok i → encode i = w)

/-- 30_encoding sections 3 and 4: the field decoder accepts a word iff the match and mask
table selects it, and then it reads the operation of the one row that does. -/
def Obligations.DecoderAgreesWithMatchAndMaskTable : Prop :=
  ∀ w : PortWord,
    (∀ i, decode w = .ok i → w.selected = [i.mnemonic] ∧ i.port = w.port) ∧
    (∀ why, decode w = .error why → w.selected = [])

/-- 30_encoding section 4: the words the decoder rejects are exactly the reserved encodings
the spec lists, on either port. -/
def Obligations.ReservedEncodingsAreExactlyTheListed : Prop :=
  (∀ w : CommandWord,
    (∃ why, decode (.command w) = .error why) ↔
      ((commandFields w).op.toNat = 0 ∨ 8 ≤ (commandFields w).op.toNat ∨
       (commandFields w).rsv ≠ 0#3 ∨
       ((commandFields w).q = 1#1 ∧ (commandFields w).op.toNat ∈ [4, 5, 6, 7]) ∨
       ((commandFields w).op.toNat ∈ [1, 3, 4, 6] ∧ (commandFields w).b0 ≠ 0#8) ∨
       ((commandFields w).op.toNat ∈ [1, 2, 3, 4, 5, 6] ∧
          ((commandFields w).b1 ≠ 0#8 ∨ (commandFields w).b2 ≠ 0#8 ∨ (commandFields w).b3 ≠ 0#8)))) ∧
  (∀ w : EventWord,
    (∃ why, decode (.event w) = .error why) ↔
      (((eventFields w).txe = 0#1 ∧ (eventFields w).rxr = 0#1) ∨
       ((eventFields w).txe = 1#1 ∧ (eventFields w).rxr = 0#1 ∧ (eventFields w).d ≠ 0#8)))

/-- 95_test_vectors V1 and V2: words written out from the encoding of each operation decode
to it (a sanity statement). -/
def Obligations.SampleWordsDecode : Prop :=
  decode (.command 0x1800000000#40) = .ok (.qinit .tx) ∧
  decode (.command 0x2041000000#40) = .ok (.qput .rx 0x41#8) ∧
  decode (.command 0x3800000000#40) = .ok (.qget .tx) ∧
  decode (.command 0x4000000000#40) = .ok .recvb ∧
  decode (.command 0x505A000000#40) = .ok (.sendb 0x5A#8) ∧
  decode (.command 0x6000000000#40) = .ok .tryrx ∧
  decode (.command 0x7081020304#40) = .ok (.send 0x81#8 0x02#8 0x03#8 0x04#8) ∧
  decode (.event 0x141#10) = .ok (.rxrdy 0x41#8) ∧
  decode (.event 0x200#10) = .ok .txemp ∧
  decode (.event 0x342#10) = .ok (.rxtx 0x42#8)

/-! ## The step -/

/-- 20_memory sections 5 and 7: a step takes the next word presented, decodes it and runs the
operation on the state from which the word has been taken. -/
def Obligations.StepRunsThePresentedOperation : Prop :=
  ∀ (s : State) (w : PortWord) (ws : List PortWord) (i : Instr),
    s.InRange → s.trace = w :: ws → decode w = .ok i →
    step s = exec i { s with trace := ws }

/-- The same through the table's numbering: a table word placed by withFetchWord is the one
the next step runs (log 8, log 13). -/
def Obligations.PlacedTableWordRunsNext : Prop :=
  ∀ (s : State) (nbits w : Nat) (i : Instr),
    s.InRange → decodeTableWord nbits w = some i → step (s.withFetchWord nbits w) = exec i s

/-- The model's choice (log 8): with no word presented a step changes nothing. -/
def Obligations.StepIdlesWithNoWordPresented : Prop :=
  ∀ s : State, s.InRange → s.trace = [] → step s = .next s

/-- 30_encoding section 4, decision D10 (log 10): a step refuses a reserved word by name; the
refusal of a command word carries the hardware's response `ill = 1`, `ok = 0`. -/
def Obligations.StepRefusesReservedWords : Prop :=
  ∀ (s : State) (ws : List PortWord) (why : Reserved), s.InRange →
    (∀ w, s.trace = .command w :: ws → decode (.command w) = .error why →
      step s = .refused (.reservedCommand why { ill := true, ok := false, data := none })) ∧
    (∀ w, s.trace = .event w :: ws → decode (.event w) = .error why →
      step s = .refused (.reservedEvent why))

/-- 93_implementation_defined U8 (log 2): a state whose queue registers are outside their
ranges has no meaning; a step refuses it. -/
def Obligations.StepRefusesStatesOutsideTheRanges : Prop :=
  ∀ s : State, ¬ s.InRange → step s = .refused .outsideRange

/-! ## Reset and invariants -/

/-- 10_state section 8 (decision D8; F is the model's choice, log 3, and so are the output
ports and the capacities, log 1, log 6): what reset leaves, for every pair of capacities. -/
def Obligations.ResetLeavesTheInitialState : Prop :=
  ∀ nRx nTx : Nat,
    (∀ q, ((State.resetWith nRx nTx).queue q).rd = 0 ∧ ((State.resetWith nRx nTx).queue q).wr = 0 ∧
      ((State.resetWith nRx nTx).queue q).cnt = 0) ∧
    (State.resetWith nRx nTx).rxq.cap = nRx ∧ (State.resetWith nRx nTx).txq.cap = nTx ∧
    (State.resetWith nRx nTx).fcnt = 0 ∧ (State.resetWith nRx nTx).txarm = false ∧
    (State.resetWith nRx nTx).excl = false

/-- The invariant holds after reset, for all capacities of at least 1, and for State.reset. -/
def Obligations.ResetMeetsTheInvariant : Prop :=
  (∀ nRx nTx : Nat, 1 ≤ nRx → 1 ≤ nTx → (State.resetWith nRx nTx).Inv) ∧ State.reset.Inv

/-- 10_state sections 2 and 6, 30_encoding section 2: every step keeps the invariant: the
ranges, `WR = (RD + CNT) mod N`, every occupied slot written, the buffers in canonical form
and inside `[0, N)`, the exclusion released, only legal responses on the ports. -/
def Obligations.EveryStepKeepsTheInvariant : Prop :=
  ∀ s s1 : State, s.Inv → step s = .next s1 → s1.Inv

/-- 10_state R13: the ranges hold after reset and after every operation, and CNT alone
decides empty and full. -/
def Obligations.QueueRangesHoldAfterEveryOperation : Prop :=
  (∀ nRx nTx : Nat, 1 ≤ nRx → 1 ≤ nTx → (State.resetWith nRx nTx).InRange) ∧
  (∀ (i : Instr) (s s1 : State), s.InRange → exec i s = .next s1 → s1.InRange) ∧
  (∀ q : Queue, (q.empty = true ↔ q.cnt = 0) ∧ (q.full = true ↔ q.cnt = q.cap))

/-- 60_exceptions R150: no operation faults or is refused, in any state that meets the
invariant of the reachable states, whatever its operands. -/
def Obligations.EveryOperationCompletes : Prop :=
  ∀ (i : Instr) (s : State), s.Inv → ∃ s1, exec i s = .next s1

/-- 93_implementation_defined U2 and log 12: where a get would read a slot that nothing has
written, or a slot outside the buffer, it stops with that fault. -/
def Obligations.GetOfAValuelessSlotFaults : Prop :=
  ∀ (q : QSel) (s : State), 0 < (s.queue q).cnt →
    ((s.queue q).rd < (s.queue q).cap → (s.queue q).buf.read (s.queue q).rd = none →
      exec (.qget q) s = .fault (.unwrittenSlot (s.queue q).rd) ∧
      (q = .rx → exec .recvb s = .fault (.unwrittenSlot s.rxq.rd) ∧
                 exec .tryrx s = .fault (.unwrittenSlot s.rxq.rd)) ∧
      (q = .tx → s.txarm = true → exec .txemp s = .fault (.unwrittenSlot s.txq.rd))) ∧
    ((s.queue q).cap ≤ (s.queue q).rd →
      exec (.qget q) s = .fault (.noSuchSlot (s.queue q).rd))

/-! ## The Byte Queue -/

/-- 40_byte_queue R82: QINIT zeroes RD, WR and CNT, answers ok = 1, and leaves the slots,
TXARM, FCNT and F as they were; the queue is then empty and, having a slot, not full. -/
def Obligations.QinitResult : Prop :=
  ∀ (q : QSel) (s : State),
    exec (.qinit q) s = .next
      { s.setQueue q { s.queue q with rd := 0, wr := 0, cnt := 0 } with
        response := some { ill := false, ok := true, data := none }, lineOut := none, excl := false } ∧
    (∀ s1, 1 ≤ (s.queue q).cap → exec (.qinit q) s = .next s1 →
      (s1.queue q).empty = true ∧ (s1.queue q).full = false)

/-- 40_byte_queue R83, R84: QPUT stores its byte at WR, steps WR modulo N and counts iff
CNT < N; otherwise it answers ok = 0 and changes nothing. TXARM is never changed. -/
def Obligations.QputResult : Prop :=
  ∀ (q : QSel) (b0 : Byte) (s : State), (s.queue q).InRange →
    exec (.qput q b0) s = .next
      (if (s.queue q).cnt < (s.queue q).cap then
        { s.setQueue q { s.queue q with
            buf := (s.queue q).buf.write (s.queue q).wr b0
            wr := ((s.queue q).wr + 1) % (s.queue q).cap
            cnt := (s.queue q).cnt + 1 } with
          response := some { ill := false, ok := true, data := none }, lineOut := none, excl := false }
      else
        { s with
          response := some { ill := false, ok := false, data := none }, lineOut := none, excl := false }) ∧
    (∀ s1, (s.queue q).cnt < (s.queue q).cap → exec (.qput q b0) s = .next s1 →
      (s1.queue q).buf.read (s.queue q).wr = some b0)

/-- 40_byte_queue R87, R88: QGET delivers the byte at RD, steps RD modulo N and uncounts iff
CNT > 0; otherwise it answers ok = 0 with no byte and changes nothing. -/
def Obligations.QgetResult : Prop :=
  ∀ (q : QSel) (s : State), (s.queue q).InRange →
    ((s.queue q).cnt = 0 →
      exec (.qget q) s = .next
        { s with
          response := some { ill := false, ok := false, data := none }, lineOut := none, excl := false }) ∧
    (∀ v, 0 < (s.queue q).cnt → (s.queue q).buf.read (s.queue q).rd = some v →
      exec (.qget q) s = .next
        { s.setQueue q { s.queue q with
            rd := ((s.queue q).rd + 1) % (s.queue q).cap
            cnt := (s.queue q).cnt - 1 } with
          response := some { ill := false, ok := true, data := some v }, lineOut := none, excl := false })

/-- 40_byte_queue R86: the index increment is a modulo by N; N increments bring an index
back; RD moves by at most one per operation, and WR by one per byte put. -/
def Obligations.IndicesStepByOneModuloN : Prop :=
  (∀ n i : Nat, i < n →
    (i + 1 < n → nextIndex n i = i + 1) ∧ (i + 1 = n → nextIndex n i = 0) ∧
    nextIndex n i < n ∧ (nextIndex n)^[n] i = i) ∧
  (∀ (i : Instr) (q : QSel) (s s1 : State), s.InRange → i ≠ .qinit q → exec i s = .next s1 →
    (s1.queue q).rd = (nextIndex (s.queue q).cap)^[(bytesGot q i s s1).length] (s.queue q).rd ∧
    (bytesGot q i s s1).length ≤ 1 ∧
    (s1.queue q).wr = (nextIndex (s.queue q).cap)^[(bytesPut q i s).length] (s.queue q).wr)

/-- 40_byte_queue R90: over any run without a QINIT of the queue, CNT grows by the bytes put
and shrinks by the bytes got, and stays at most N. -/
def Obligations.CountIsPutsMinusGets : Prop :=
  ∀ (q : QSel) (ops : List Instr) (s s1 : State) (puts gots : List Byte),
    (s.queue q).InRange → (∀ i ∈ ops, i ≠ .qinit q) →
    runFlow q ops s = some (puts, gots, s1) →
    (s1.queue q).cnt + gots.length = (s.queue q).cnt + puts.length ∧
    (s1.queue q).cnt ≤ (s1.queue q).cap

/-- 40_byte_queue section 6 (a derived rule): first in, first out, over any run of both
agents' operations without a QINIT of the queue: what was in the queue and what was put into
it is, in order, what was got from it and what is still in it. -/
def Obligations.QueueIsFirstInFirstOutOverAnyRun : Prop :=
  ∀ (q : QSel) (ops : List Instr) (s : State), s.Inv → (∀ i ∈ ops, i ≠ .qinit q) →
    ∃ puts gots s1, runFlow q ops s = some (puts, gots, s1) ∧
      (s.queue q).contents ++ puts = gots ++ (s1.queue q).contents

/-- 40_byte_queue sections 5 and 6, 10_state section 2: the block refines the abstract block
whose queues are plain lists. Every operation completes, keeps the invariant, and does to the
lists, TXARM, the framer and the ports exactly what the abstract operation does; no
answer depends on an index, a stale slot or an unwritten slot. -/
def Obligations.BlockRefinesListQueues : Prop :=
  ∀ (i : Instr) (s : State), s.Inv →
    ∃ s1, exec i s = .next s1 ∧ s1.Inv ∧ s1.abs = absExec i s.abs

/-! ## The Serial Link -/

/-- 41_serial_link R102: RECVB takes the oldest byte of RXQ, or answers ok = 0 and changes
nothing. -/
def Obligations.RecvbResult : Prop :=
  ∀ s : State, s.rxq.InRange →
    (s.rxq.cnt = 0 →
      exec .recvb s = .next
        { s with
          response := some { ill := false, ok := false, data := none }, lineOut := none, excl := false }) ∧
    (∀ v, 0 < s.rxq.cnt → s.rxq.buf.read s.rxq.rd = some v →
      exec .recvb s = .next
        { s with
          rxq := { s.rxq with rd := (s.rxq.rd + 1) % s.rxq.cap, cnt := s.rxq.cnt - 1 }
          response := some { ill := false, ok := true, data := some v }, lineOut := none, excl := false })

/-- 41_serial_link section 2 (a derived rule): RECVB behaves exactly as QGET rx. -/
def Obligations.RecvbIsQgetRx : Prop :=
  ∀ s : State, exec .recvb s = exec (.qget .rx) s

/-- 41_serial_link R104: SENDB puts its byte into TXQ and, on success only, arms. -/
def Obligations.SendbResult : Prop :=
  ∀ (b0 : Byte) (s : State), s.txq.InRange →
    exec (.sendb b0) s = .next
      (if s.txq.cnt < s.txq.cap then
        { s with
          txq := { s.txq with
            buf := s.txq.buf.write s.txq.wr b0
            wr := (s.txq.wr + 1) % s.txq.cap
            cnt := s.txq.cnt + 1 }
          txarm := true
          response := some { ill := false, ok := true, data := none }, lineOut := none, excl := false }
      else
        { s with
          response := some { ill := false, ok := false, data := none }, lineOut := none, excl := false })

/-- 41_serial_link R106, R107, R108: RXRDY puts the received byte into RXQ; a byte that finds
RXQ full is dropped, and nothing records it. No response, no line output. -/
def Obligations.RxrdyResult : Prop :=
  ∀ (d : Byte) (s : State), s.rxq.InRange →
    exec (.rxrdy d) s = .next
      (if s.rxq.cnt < s.rxq.cap then
        { s with
          rxq := { s.rxq with
            buf := s.rxq.buf.write s.rxq.wr d
            wr := (s.rxq.wr + 1) % s.rxq.cap
            cnt := s.rxq.cnt + 1 }
          response := none, lineOut := none, excl := false }
      else { s with response := none, lineOut := none, excl := false })

/-- 41_serial_link R109: an armed transmit service sends the oldest byte of TXQ and leaves
TXARM set, or, finding TXQ empty, disarms and sends nothing. -/
def Obligations.TxempWhileArmedResult : Prop :=
  ∀ s : State, s.txq.InRange → s.txarm = true →
    (s.txq.cnt = 0 →
      exec .txemp s = .next
        { s with txarm := false, response := none, lineOut := none, excl := false }) ∧
    (∀ v, 0 < s.txq.cnt → s.txq.buf.read s.txq.rd = some v →
      exec .txemp s = .next
        { s with
          txq := { s.txq with rd := (s.txq.rd + 1) % s.txq.cap, cnt := s.txq.cnt - 1 }
          response := none, lineOut := some v, excl := false })

/-- 41_serial_link section 5, decision D11: a transmit event while disarmed does nothing, even
with bytes queued. -/
def Obligations.TxempWhileDisarmedDoesNothing : Prop :=
  ∀ s : State, s.txarm = false →
    exec .txemp s = .next { s with response := none, lineOut := none, excl := false }

/-- 41_serial_link section 6, decisions D11, D20: RXTX is the receive service and, while
armed, the transmit service, in one step. -/
def Obligations.RxtxResult : Prop :=
  ∀ (d : Byte) (s : State), s.InRange →
    let rxq1 : Queue :=
      if s.rxq.cnt < s.rxq.cap then
        { s.rxq with
          buf := s.rxq.buf.write s.rxq.wr d
          wr := (s.rxq.wr + 1) % s.rxq.cap
          cnt := s.rxq.cnt + 1 }
      else s.rxq
    (s.txarm = false →
      exec (.rxtx d) s = .next
        { s with rxq := rxq1, response := none, lineOut := none, excl := false }) ∧
    (s.txarm = true → s.txq.cnt = 0 →
      exec (.rxtx d) s = .next
        { s with rxq := rxq1, txarm := false, response := none, lineOut := none, excl := false }) ∧
    (∀ v, s.txarm = true → 0 < s.txq.cnt → s.txq.buf.read s.txq.rd = some v →
      exec (.rxtx d) s = .next
        { s with
          rxq := rxq1
          txq := { s.txq with rd := (s.txq.rd + 1) % s.txq.cap, cnt := s.txq.cnt - 1 }
          response := none, lineOut := some v, excl := false })

/-- 41_serial_link section 6, decision D20: RXTX d equals RXRDY d then TXEMP, in state and
line output; and TXEMP then RXRDY d leaves the same state, the line output having come with
the TXEMP. -/
def Obligations.RxtxIsRxrdyAndTxempInEitherOrder : Prop :=
  ∀ (d : Byte) (s s1 : State), s.InRange → exec (.rxtx d) s = .next s1 →
    (∃ a, exec (.rxrdy d) s = .next a ∧ exec .txemp a = .next s1) ∧
    (∃ a b, exec .txemp s = .next a ∧ exec (.rxrdy d) a = .next b ∧
      a.lineOut = s1.lineOut ∧ s1 = { b with lineOut := a.lineOut })

/-- 41_serial_link section 5 (a derived rule): with CNT bytes queued and the interrupt armed,
CNT + 1 transmit events put exactly those bytes on the line, in order, and come to rest
disarmed with TXQ empty; after each of the first CNT it is still armed. -/
def Obligations.ArmedTransmitEventsDrainAndDisarm : Prop :=
  ∀ s : State, s.Inv → s.txarm = true →
    (∃ s1, runFlow .tx (List.replicate (s.txq.cnt + 1) .txemp) s = some ([], s.txq.contents, s1) ∧
      s1.txarm = false ∧ s1.txq.cnt = 0) ∧
    (∀ n, n ≤ s.txq.cnt → ∃ t, runTimes .txemp n s = .next t ∧ t.txarm = true)

/-- 10_state section 5, 60_exceptions section 2: TXARM is set only by a SENDB or SEND that
queues a byte and cleared only by a transmit service that finds TXQ empty. -/
def Obligations.TxarmChangesOnlyBySendAndEmptyService : Prop :=
  ∀ (i : Instr) (s s1 : State), s.txq.InRange → exec i s = .next s1 → s1.txarm ≠ s.txarm →
    (s1.txarm = true ∧ bytesPut .tx i s ≠ [] ∧
      ((∃ b, i = .sendb b) ∨ ∃ b0 b1 b2 b3, i = .send b0 b1 b2 b3)) ∨
    (s1.txarm = false ∧ s.txq.cnt = 0 ∧ (i = .txemp ∨ ∃ d, i = .rxtx d))

/-- 10_state section 5 (a derived rule): as long as TXQ is filled only through SENDB and
SEND, a non-empty TXQ is armed: every operation but QPUT tx keeps it so. -/
def Obligations.QueuedBytesStayArmedWithoutQputTx : Prop :=
  (∀ nRx nTx : Nat, 0 < (State.resetWith nRx nTx).txq.cnt → (State.resetWith nRx nTx).txarm = true) ∧
  (∀ (i : Instr) (s s1 : State), s.txq.InRange → (∀ b, i ≠ .qput .tx b) → exec i s = .next s1 →
    (0 < s.txq.cnt → s.txarm = true) → 0 < s1.txq.cnt → s1.txarm = true)

/-! ## The Packet Protocol -/

/-- 42_packet_protocol R123: a TRYRX that finds RXQ empty answers ok = 0 and changes nothing,
whatever FCNT is. -/
def Obligations.TryrxWithNoByteChangesNothing : Prop :=
  ∀ s : State, s.rxq.cnt = 0 →
    exec .tryrx s = .next
      { s with
        response := some { ill := false, ok := false, data := none }, lineOut := none, excl := false }

/-- 42_packet_protocol R124: with FCNT in 0 to 3 the byte goes to the slot FCNT names, FCNT
steps by one, ok = 0, and the other four slots are unchanged. -/
def Obligations.TryrxAccumulatesBeforeTheFifthByte : Prop :=
  ∀ (s : State) (v : Byte), s.rxq.InRange → 0 < s.rxq.cnt → s.rxq.buf.read s.rxq.rd = some v →
    s.fcnt < 4 →
    ∃ f : Frame, f.get s.fcnt = v ∧ (∀ k, k ≠ s.fcnt → f.get k = s.frame.get k) ∧
      exec .tryrx s = .next
        { s with
          rxq := { s.rxq with rd := (s.rxq.rd + 1) % s.rxq.cap, cnt := s.rxq.cnt - 1 }
          fcnt := s.fcnt + 1
          frame := f
          response := some { ill := false, ok := false, data := none }, lineOut := none, excl := false }

/-- 42_packet_protocol R125, R120: with FCNT = 4 and a byte equal to the XOR of F[0..3], the
byte goes to F[4], FCNT returns to 0, ok = 1, and the other four slots are unchanged. -/
def Obligations.TryrxMatchDeliversThePacket : Prop :=
  ∀ (s : State) (v : Byte), s.rxq.InRange → 0 < s.rxq.cnt → s.rxq.buf.read s.rxq.rd = some v →
    s.fcnt = 4 →
    v = s.frame.command ^^^ s.frame.parameter1 ^^^ s.frame.parameter2 ^^^ s.frame.parameter3 →
    exec .tryrx s = .next
      { s with
        rxq := { s.rxq with rd := (s.rxq.rd + 1) % s.rxq.cap, cnt := s.rxq.cnt - 1 }
        fcnt := 0
        frame := { s.frame with checksum := v }
        response := some { ill := false, ok := true, data := none }, lineOut := none, excl := false }

/-- 42_packet_protocol section 2 (R126, whose F[4] is decision D13): with FCNT = 4 and any
other byte, the window slides by exactly one byte, FCNT stays 4, ok = 0. -/
def Obligations.TryrxMismatchSlidesByOneByte : Prop :=
  ∀ (s : State) (v : Byte), s.rxq.InRange → 0 < s.rxq.cnt → s.rxq.buf.read s.rxq.rd = some v →
    s.fcnt = 4 →
    v ≠ s.frame.command ^^^ s.frame.parameter1 ^^^ s.frame.parameter2 ^^^ s.frame.parameter3 →
    exec .tryrx s = .next
      { s with
        rxq := { s.rxq with rd := (s.rxq.rd + 1) % s.rxq.cap, cnt := s.rxq.cnt - 1 }
        fcnt := 4
        frame :=
          { command := s.frame.parameter1, parameter1 := s.frame.parameter2,
            parameter2 := s.frame.parameter3, parameter3 := v, checksum := v }
        response := some { ill := false, ok := false, data := none }, lineOut := none, excl := false }

/-- 42_packet_protocol R127: the framer's whole transition table; the initial state is 0, and
no operation but TRYRX moves it. -/
def Obligations.FramerStateMachine : Prop :=
  (∀ nRx nTx : Nat, (State.resetWith nRx nTx).fcnt = 0) ∧
  (∀ (i : Instr) (s s1 : State), i ≠ .tryrx → exec i s = .next s1 →
    s1.fcnt = s.fcnt ∧ s1.frame = s.frame) ∧
  (∀ s s1 : State, exec .tryrx s = .next s1 →
    (s.rxq.cnt = 0 → s1.fcnt = s.fcnt ∧ s1.frame = s.frame ∧ s1.answeredOk = false) ∧
    (∀ v, 0 < s.rxq.cnt → s.rxq.buf.read s.rxq.rd = some v →
      (s.fcnt = 0 → s1.fcnt = 1 ∧ s1.frame = { s.frame with command := v } ∧ s1.answeredOk = false) ∧
      (s.fcnt = 1 → s1.fcnt = 2 ∧ s1.frame = { s.frame with parameter1 := v } ∧ s1.answeredOk = false) ∧
      (s.fcnt = 2 → s1.fcnt = 3 ∧ s1.frame = { s.frame with parameter2 := v } ∧ s1.answeredOk = false) ∧
      (s.fcnt = 3 → s1.fcnt = 4 ∧ s1.frame = { s.frame with parameter3 := v } ∧ s1.answeredOk = false) ∧
      (s.fcnt = 4 →
        (v = s.frame.command ^^^ s.frame.parameter1 ^^^ s.frame.parameter2 ^^^ s.frame.parameter3 →
          s1.fcnt = 0 ∧ s1.frame = { s.frame with checksum := v } ∧ s1.answeredOk = true) ∧
        (v ≠ s.frame.command ^^^ s.frame.parameter1 ^^^ s.frame.parameter2 ^^^ s.frame.parameter3 →
          s1.fcnt = 4 ∧
          s1.frame = ⟨s.frame.parameter1, s.frame.parameter2, s.frame.parameter3, v, v⟩ ∧
          s1.answeredOk = false))))

/-- 42_packet_protocol R128: a TRYRX that answers ok = 1 leaves the packet in F[0..3] with its
checksum in F[4]; it stays there through any run in which no TRYRX obtains a byte; the next
TRYRX that obtains a byte writes F[0] and leaves F[1..4]. -/
def Obligations.CurrentPacketLastsUntilTheNextByte : Prop :=
  ∀ s s1 : State, exec .tryrx s = .next s1 → s1.answeredOk = true →
    (s1.pktCommand = s.frame.command ∧ s1.pktP1 = s.frame.parameter1 ∧
      s1.pktP2 = s.frame.parameter2 ∧ s1.pktP3 = s.frame.parameter3 ∧
      s1.frame.checksum = s1.pktCommand ^^^ s1.pktP1 ^^^ s1.pktP2 ^^^ s1.pktP3 ∧
      s1.pktAckreq = s1.frame.command.getLsbD 7 ∧
      s1.pktCode = s1.frame.command.extractLsb' 0 7) ∧
    (∀ (ops : List Instr) (s2 : State), noByteTaken ops s1 = true → runOps ops s1 = .next s2 →
      s2.frame = s1.frame ∧
      ∀ (v : Byte) (s3 : State), 0 < s2.rxq.cnt → s2.rxq.buf.read s2.rxq.rd = some v →
        exec .tryrx s2 = .next s3 → s3.frame = { s1.frame with command := v })

/-- 42_packet_protocol section 4 (a derived rule), for polls with nothing between: from
FCNT = 0 with a stream waiting in RXQ, the framer holds the last bytes polled, tests each
window of five in turn, and the first match is at the first window that satisfies the
checksum relation, delivering that window. -/
def Obligations.ResynchronisationFindsTheFirstMatchingWindow : Prop :=
  ∀ (s : State) (n : Nat), s.Inv → s.fcnt = 0 → n ≤ s.rxq.contents.length →
    ((∀ m, m ≤ n → ¬ windowMatches s.rxq.contents m) →
      ∃ t, runTimes .tryrx n s = .next t ∧ t.fcnt.val = min n 4 ∧
        (∀ k : Fin 5, k.val < min n 4 →
          t.frame.get k = s.rxq.contents.getD (n - min n 4 + k.val) 0#8) ∧
        (1 ≤ n → t.answeredOk = false)) ∧
    (windowMatches s.rxq.contents n → (∀ m, m < n → ¬ windowMatches s.rxq.contents m) →
      ∃ t, runTimes .tryrx n s = .next t ∧ t.fcnt = 0 ∧ t.answeredOk = true ∧
        ∀ k : Fin 5, t.frame.get k = s.rxq.contents.getD (n - 5 + k.val) 0#8)

/-- 42_packet_protocol section 3 (a derived rule), a lemma about one operation run from two
states: where they differ only in slots the framer holds no byte in (those from FCNT on), an
operation that answers a next state in one does so in the other, with the same response and
the same line byte, and a packet that it newly delivers is the same; the two next states again
differ only in such slots. So no answer, line byte or newly delivered packet depends on the F
values the model names at reset (log 3). The slots themselves are visible: the pkt outputs
show them (10_state section 7), and at FCNT = 0 after a match they are the current packet. -/
def Obligations.NoAnswerLineByteOrNewPacketDependsOnUnheldSlots : Prop :=
  ∀ (i : Instr) (s t s1 : State), SameButUnheldSlots s t → exec i s = .next s1 →
    ∃ t1, exec i t = .next t1 ∧ SameButUnheldSlots s1 t1 ∧
      s1.response = t1.response ∧ s1.lineOut = t1.lineOut ∧
      (i = .tryrx → s1.answeredOk = true → t1.frame = s1.frame)

/-- 42_packet_protocol section 1 (a derived rule): a frame is valid iff the XOR of its five
bytes is zero; changing one byte of a valid frame makes it invalid; changing two bytes by the
same difference changes nothing. -/
def Obligations.ChecksumLaws : Prop :=
  (∀ f : Frame, f.valid = true ↔
    f.command ^^^ f.parameter1 ^^^ f.parameter2 ^^^ f.parameter3 ^^^ f.checksum = 0#8) ∧
  (∀ (f : Frame) (i : Fin 5) (v : Byte), f.valid = true → v ≠ f.get i → (f.set i v).valid = false) ∧
  (∀ (f : Frame) (i j : Fin 5) (x : Byte), i ≠ j →
    ((f.set i (f.get i ^^^ x)).set j (f.get j ^^^ x)).valid = f.valid)

/-- 42_packet_protocol R130: SEND is the five SENDBs of its four bytes and their XOR, in that
order, and answers ok = 1 iff all five do. -/
def Obligations.SendIsFiveSendbs : Prop :=
  ∀ (b0 b1 b2 b3 : Byte) (s s0 s1 s2 s3 s4 : State),
    exec (.sendb b0) s = .next s0 → exec (.sendb b1) s0 = .next s1 →
    exec (.sendb b2) s1 = .next s2 → exec (.sendb b3) s2 = .next s3 →
    exec (.sendb (b0 ^^^ b1 ^^^ b2 ^^^ b3)) s3 = .next s4 →
    exec (.send b0 b1 b2 b3) s = .next
      { s4 with
        response := some
          { ill := false
            ok := s0.answeredOk && s1.answeredOk && s2.answeredOk && s3.answeredOk && s4.answeredOk
            data := none } }

/-- 42_packet_protocol section 5 (R131, decision D14): SEND queues the first min(5, free)
bytes of the frame, contiguous and in order, arms if there was a free slot, and answers
ok = 1 iff at least five were free. Nothing is rolled back. -/
def Obligations.SendQueuesWhatFits : Prop :=
  ∀ (b0 b1 b2 b3 : Byte) (s : State), s.txq.InRange →
    exec (.send b0 b1 b2 b3) s = .next
      { s with
        txq := s.txq.pushed ([b0, b1, b2, b3, b0 ^^^ b1 ^^^ b2 ^^^ b3].take (s.txq.cap - s.txq.cnt))
        txarm := s.txarm || decide (1 ≤ s.txq.cap - s.txq.cnt)
        response := some { ill := false, ok := decide (5 ≤ s.txq.cap - s.txq.cnt), data := none }
        lineOut := none, excl := false }

/-- 42_packet_protocol section 6 (a derived rule), for the interleaving that carries each
byte back at once and polls: a packet sent over a loop-back wire is reconstructed; the first
four polls answer ok = 0 and the fifth ok = 1 with the four bytes and their checksum. -/
def Obligations.SendThenReceiveReconstructsThePacket : Prop :=
  ∀ (a b c d : Byte) (s : State), s.Inv → s.fcnt = 0 → s.rxq.cnt = 0 → s.txq.cnt = 0 →
    5 ≤ s.txq.cap →
    ∃ s0, exec (.send a b c d) s = .next s0 ∧ s0.answeredOk = true ∧
      (∀ n, 1 ≤ n → n ≤ 4 → ∃ t, loopBackTimes n s0 = .next t ∧ t.answeredOk = false) ∧
      ∃ t, loopBackTimes 5 s0 = .next t ∧ t.answeredOk = true ∧ t.fcnt = 0 ∧
        t.frame = ⟨a, b, c, d, a ^^^ b ^^^ c ^^^ d⟩

/-! ## Frames -/

/-- 20_memory section 1: an operation changes no byte of either buffer but those of the slots
it stores to, which are the write index and its successors, as many as it has bytes to put
and there are free slots. -/
def Obligations.BuffersChangeOnlyAtTheStoredSlots : Prop :=
  ∀ (i : Instr) (q : QSel) (s s1 : State) (a : Nat), exec i s = .next s1 →
    a ∉ storedSlots i q s → (s1.queue q).buf.read a = (s.queue q).buf.read a

/-- 40_byte_queue, 41_serial_link section 2: QINIT, QGET, RECVB store no byte and change,
beside the output ports, only RD, WR, CNT of their queue (QGET and RECVB not WR). -/
def Obligations.InitAndGetFrame : Prop :=
  ∀ (q : QSel) (s s1 : State),
    (exec (.qinit q) s = .next s1 →
      s1 = { s.setQueue q { s.queue q with
                rd := (s1.queue q).rd, wr := (s1.queue q).wr, cnt := (s1.queue q).cnt } with
             response := s1.response, lineOut := s1.lineOut, excl := s1.excl }) ∧
    ((exec (.qget q) s = .next s1 ∨ (q = .rx ∧ exec .recvb s = .next s1)) →
      s1 = { s.setQueue q { s.queue q with rd := (s1.queue q).rd, cnt := (s1.queue q).cnt } with
             response := s1.response, lineOut := s1.lineOut, excl := s1.excl })

/-- 40_byte_queue R84, 41_serial_link R107: QPUT and RXRDY change, beside the output ports,
only BUF, WR, CNT of their queue. -/
def Obligations.PutFrame : Prop :=
  ∀ (q : QSel) (b : Byte) (s s1 : State),
    (exec (.qput q b) s = .next s1 ∨ (q = .rx ∧ exec (.rxrdy b) s = .next s1)) →
    s1 = { s.setQueue q { s.queue q with
              buf := (s1.queue q).buf, wr := (s1.queue q).wr, cnt := (s1.queue q).cnt } with
           response := s1.response, lineOut := s1.lineOut, excl := s1.excl }

/-- 41_serial_link section 3, 42_packet_protocol section 5: SENDB and SEND change, beside the
output ports, only BUF, WR, CNT of TXQ, and TXARM. -/
def Obligations.SendFrame : Prop :=
  ∀ (i : Instr) (s s1 : State),
    ((∃ b, i = .sendb b) ∨ ∃ b0 b1 b2 b3, i = .send b0 b1 b2 b3) → exec i s = .next s1 →
    s1 = { s with
           txq := { s.txq with buf := s1.txq.buf, wr := s1.txq.wr, cnt := s1.txq.cnt }
           txarm := s1.txarm
           response := s1.response, lineOut := s1.lineOut, excl := s1.excl }

/-- 42_packet_protocol section 2: TRYRX stores no byte of a buffer and changes, beside the
output ports, only RD, CNT of RXQ, FCNT and F. -/
def Obligations.TryrxFrame : Prop :=
  ∀ s s1 : State, exec .tryrx s = .next s1 →
    s1 = { s with
           rxq := { s.rxq with rd := s1.rxq.rd, cnt := s1.rxq.cnt }
           fcnt := s1.fcnt, frame := s1.frame
           response := s1.response, lineOut := s1.lineOut, excl := s1.excl }

/-- 41_serial_link sections 5 and 6: TXEMP changes, beside the output ports, only RD, CNT of
TXQ and TXARM; RXTX those and BUF, WR, CNT of RXQ. -/
def Obligations.TransmitEventFrame : Prop :=
  ∀ s s1 : State,
    (exec .txemp s = .next s1 →
      s1 = { s with
             txq := { s.txq with rd := s1.txq.rd, cnt := s1.txq.cnt }
             txarm := s1.txarm
             response := s1.response, lineOut := s1.lineOut, excl := s1.excl }) ∧
    (∀ d, exec (.rxtx d) s = .next s1 →
      s1 = { s with
             rxq := { s.rxq with buf := s1.rxq.buf, wr := s1.rxq.wr, cnt := s1.rxq.cnt }
             txq := { s.txq with rd := s1.txq.rd, cnt := s1.txq.cnt }
             txarm := s1.txarm
             response := s1.response, lineOut := s1.lineOut, excl := s1.excl })

/-! ## The two contexts and their ports -/

/-- 60_exceptions section 5: the interrupt context never writes RXQ.RD, TXQ.WR, TXQ.BUF, FCNT
or F and never arms; the main context never disarms. -/
def Obligations.ContextsWriteOnlyTheirOwnState : Prop :=
  ∀ (i : Instr) (s s1 : State), exec i s = .next s1 →
    (i.port = .line →
      s1.rxq.rd = s.rxq.rd ∧ s1.txq.wr = s.txq.wr ∧ s1.txq.buf = s.txq.buf ∧
      s1.fcnt = s.fcnt ∧ s1.frame = s.frame ∧ (s1.txarm = true → s.txarm = true)) ∧
    (i.port = .main → s.txarm = true → s1.txarm = true)

/-- 30_encoding sections 1 and 2 (decisions D4, D5, D16): a main-port operation gives a
response with ill = 0 and no line output, `data` present exactly when a QGET or RECVB
succeeds; a line-port operation gives no response, and a line byte only from an armed
transmit service of a non-empty TXQ. The exclusion is released (log 11). -/
def Obligations.OutputsOfAnOperation : Prop :=
  ∀ (i : Instr) (s s1 : State), exec i s = .next s1 →
    s1.excl = false ∧
    (i.port = .main → s1.lineOut = none ∧
      ∃ ok data, s1.response = some { ill := false, ok := ok, data := data } ∧
        (data.isSome = true ↔ ok = true ∧ (i = .recvb ∨ ∃ q, i = .qget q))) ∧
    (i.port = .line → s1.response = none ∧
      (s1.lineOut.isSome = true ↔
        s.txarm = true ∧ s.txq.cnt ≠ 0 ∧ (i = .txemp ∨ ∃ d, i = .rxtx d)))

/-- 10_state sections 2 and 7 (decisions D2, D7): in range, the status outputs lose no bit of
the registers they show, RD and WR fit their width, the flag and the code are the bits of
F[0], and both widths are the least that hold their ranges. -/
def Obligations.StatusOutputsShowTheRegisters : Prop :=
  (∀ s : State, s.InRange →
    s.rxCount.toNat = s.rxq.cnt ∧ s.txCount.toNat = s.txq.cnt ∧ s.frmCount.toNat = s.fcnt.val ∧
    s.rxq.rd < 2 ^ indexWidth s.rxq.cap ∧ s.rxq.wr < 2 ^ indexWidth s.rxq.cap ∧
    s.txq.rd < 2 ^ indexWidth s.txq.cap ∧ s.txq.wr < 2 ^ indexWidth s.txq.cap ∧
    BitVec.ofBool s.pktAckreq ++ s.pktCode = s.pktCommand) ∧
  (∀ n : Nat, 1 ≤ n → n < 2 ^ countWidth n ∧ 2 ^ (countWidth n - 1) ≤ n) ∧
  (∀ n : Nat, 2 ≤ n → n ≤ 2 ^ indexWidth n ∧ 2 ^ (indexWidth n - 1) < n) ∧ indexWidth 1 = 1

/-- 30_encoding section 2 (decision D5): bit 9 of the response word is `ill`, bit 8 is `ok`,
bits 7 to 0 are `data`, or whatever the unspecified bits are where there is none. -/
def Obligations.ResponseWordLayout : Prop :=
  ∀ (r : Response) (free : Byte),
    (r.word free).getLsbD 9 = r.ill ∧ (r.word free).getLsbD 8 = r.ok ∧
    (∀ v, r.data = some v → (r.word free).extractLsb' 0 8 = v) ∧
    (r.data = none → (r.word free).extractLsb' 0 8 = free)

/-- 10_state section 1, 00_scope section 4: the capacities are fixed for the life of an
instance, whatever a step does. -/
def Obligations.CapacitiesAreFixedForLife : Prop :=
  ∀ s s1 : State, step s = .next s1 → s1.rxq.cap = s.rxq.cap ∧ s1.txq.cap = s.txq.cap
end

