-- ==== Sys2Proof/Laws/Encoding.lean ====
section
/-!
SUPPORT. The fields of a word and the word of its fields are inverse, and a row of the
opcode map (spec/30_encoding.md R66) selects a word by a test on each field.
-/

namespace Sys2Proof

/-! ## Bits of a word made of fields -/

theorem commandWord_getLsbD (f : CommandFields) (i : Nat) :
    (commandWord f).getLsbD i =
      if i < 8 then f.b3.getLsbD i
      else if i < 16 then f.b2.getLsbD (i - 8)
      else if i < 24 then f.b1.getLsbD (i - 16)
      else if i < 32 then f.b0.getLsbD (i - 24)
      else if i < 35 then f.rsv.getLsbD (i - 32)
      else if i < 36 then f.q.getLsbD (i - 35)
      else f.op.getLsbD (i - 36) := by
  change BitVec.getLsbD (w := 4 + 1 + 3 + 8 + 8 + 8 + 8)
    (f.op ++ f.q ++ f.rsv ++ f.b0 ++ f.b1 ++ f.b2 ++ f.b3) i = _
  simp only [BitVec.getLsbD_append]
  grind

theorem eventWord_getLsbD (f : EventFields) (i : Nat) :
    (eventWord f).getLsbD i =
      if i < 8 then f.d.getLsbD i
      else if i < 9 then f.rxr.getLsbD (i - 8)
      else f.txe.getLsbD (i - 9) := by
  change BitVec.getLsbD (w := 1 + 1 + 8) (f.txe ++ f.rxr ++ f.d) i = _
  simp only [BitVec.getLsbD_append]
  grind

/-! ## Fields and words are inverse -/

@[simp] theorem commandFields_commandWord (f : CommandFields) :
    commandFields (commandWord f) = f := by
  obtain ⟨op, q, rsv, b0, b1, b2, b3⟩ := f
  simp only [commandFields, CommandFields.mk.injEq]
  refine ⟨?_, ?_, ?_, ?_, ?_, ?_, ?_⟩ <;>
    (apply BitVec.eq_of_getLsbD_eq
     intro i hi
     simp only [BitVec.getLsbD_extractLsb', commandWord_getLsbD, hi, decide_true, Bool.true_and]
     grind)

@[simp] theorem commandWord_commandFields (w : CommandWord) :
    commandWord (commandFields w) = w := by
  apply BitVec.eq_of_getLsbD_eq
  intro i hi
  simp only [commandWord_getLsbD, commandFields, BitVec.getLsbD_extractLsb']
  grind

@[simp] theorem eventFields_eventWord (f : EventFields) :
    eventFields (eventWord f) = f := by
  obtain ⟨txe, rxr, d⟩ := f
  simp only [eventFields, EventFields.mk.injEq]
  refine ⟨?_, ?_, ?_⟩ <;>
    (apply BitVec.eq_of_getLsbD_eq
     intro i hi
     simp only [BitVec.getLsbD_extractLsb', eventWord_getLsbD, hi, decide_true, Bool.true_and]
     grind)

@[simp] theorem eventWord_eventFields (w : EventWord) :
    eventWord (eventFields w) = w := by
  apply BitVec.eq_of_getLsbD_eq
  intro i hi
  simp only [eventWord_getLsbD, eventFields, BitVec.getLsbD_extractLsb']
  grind

/-- Two command words are equal iff all their fields are. -/
theorem commandWord_inj {f g : CommandFields} : commandWord f = commandWord g ↔ f = g :=
  ⟨fun h => by simpa using congrArg commandFields h, fun h => by rw [h]⟩

/-- Two event words are equal iff all their fields are. -/
theorem eventWord_inj {f g : EventFields} : eventWord f = eventWord g ↔ f = g :=
  ⟨fun h => by simpa using congrArg eventFields h, fun h => by rw [h]⟩

/-! ## Masks act field by field -/

theorem commandWord_and (f g : CommandFields) :
    commandWord f &&& commandWord g =
      commandWord ⟨f.op &&& g.op, f.q &&& g.q, f.rsv &&& g.rsv, f.b0 &&& g.b0, f.b1 &&& g.b1,
        f.b2 &&& g.b2, f.b3 &&& g.b3⟩ := by
  apply BitVec.eq_of_getLsbD_eq
  intro i hi
  simp only [BitVec.getLsbD_and, commandWord_getLsbD]
  grind

theorem eventWord_and (f g : EventFields) :
    eventWord f &&& eventWord g =
      eventWord ⟨f.txe &&& g.txe, f.rxr &&& g.rxr, f.d &&& g.d⟩ := by
  apply BitVec.eq_of_getLsbD_eq
  intro i hi
  simp only [BitVec.getLsbD_and, eventWord_getLsbD]
  grind

/-- A row of the main port selects a word iff it selects each field. -/
theorem selects_commandWord (r : Row 40) (f : CommandFields) :
    r.selects (commandWord f) = decide
      (f.op &&& (commandFields r.mask).op = (commandFields r.matchBits).op ∧
       f.q &&& (commandFields r.mask).q = (commandFields r.matchBits).q ∧
       f.rsv &&& (commandFields r.mask).rsv = (commandFields r.matchBits).rsv ∧
       f.b0 &&& (commandFields r.mask).b0 = (commandFields r.matchBits).b0 ∧
       f.b1 &&& (commandFields r.mask).b1 = (commandFields r.matchBits).b1 ∧
       f.b2 &&& (commandFields r.mask).b2 = (commandFields r.matchBits).b2 ∧
       f.b3 &&& (commandFields r.mask).b3 = (commandFields r.matchBits).b3) := by
  have hm := commandWord_commandFields r.mask
  have hb := commandWord_commandFields r.matchBits
  rw [Row.selects, ← hm, ← hb, commandWord_and, beq_eq_decide]
  simp only [commandWord_inj, commandFields_commandWord, CommandFields.ext_iff]

/-- A row of the line port selects a word iff it selects each field. -/
theorem selects_eventWord (r : Row 10) (f : EventFields) :
    r.selects (eventWord f) = decide
      (f.txe &&& (eventFields r.mask).txe = (eventFields r.matchBits).txe ∧
       f.rxr &&& (eventFields r.mask).rxr = (eventFields r.matchBits).rxr ∧
       f.d &&& (eventFields r.mask).d = (eventFields r.matchBits).d) := by
  have hm := eventWord_eventFields r.mask
  have hb := eventWord_eventFields r.matchBits
  rw [Row.selects, ← hm, ← hb, eventWord_and, beq_eq_decide]
  simp only [eventWord_inj, eventFields_eventWord, EventFields.ext_iff]

end Sys2Proof
end

