-- ==== Sys2Proof/Laws/Decode.lean ====
section
/-!
SUPPORT. What the decoder's parts can answer, said once.
-/

namespace Sys2Proof

/-- A bit is 0 or 1. -/
theorem bit_cases (q : BitVec 1) : q = 0#1 ∨ q = 1#1 := by
  have h : q.toNat = 0 ∨ q.toNat = 1 := by
    have := q.isLt
    omega
  exact h.imp (fun h => BitVec.eq_of_toNat_eq h) (fun h => BitVec.eq_of_toNat_eq h)

/-- A four-bit opcode with a known value. -/
theorem op_of_toNat {op : BitVec 4} {n : Nat} (h : op.toNat = n) : op = BitVec.ofNat 4 n := by
  subst h
  simp

/-- A mask of all ones keeps a byte. -/
@[simp] theorem byte_and_ff (b : Byte) : b &&& 255#8 = b := BitVec.and_allOnes

/-- A mask of all ones keeps the reserved field. -/
@[simp] theorem rsv_and_7 (r : BitVec 3) : r &&& 7#3 = r := BitVec.and_allOnes

/-- A mask of all ones keeps the queue bit. -/
@[simp] theorem bit_and_1 (q : BitVec 1) : q &&& 1#1 = q := BitVec.and_allOnes

@[simp] theorem selOfBit_bitOfSel (q : QSel) : selOfBit (bitOfSel q) = q := by
  cases q <;> rfl

@[simp] theorem bitOfSel_selOfBit (q : BitVec 1) : bitOfSel (selOfBit q) = q := by
  rcases bit_cases q with rfl | rfl <;> rfl

/-- The must-be-zero test accepts iff the queue bit and every unused byte are zero. -/
theorem requireZero_eq_ok {q : BitVec 1} {bs : List Byte} {i j : Instr} :
    requireZero q bs i = .ok j ↔ q = 0#1 ∧ (∀ b ∈ bs, b = 0#8) ∧ i = j := by
  unfold requireZero
  by_cases hq : q = 0#1
  · by_cases hb : ∀ b ∈ bs, b = 0#8
    · have : bs.all (fun b => b == 0#8) = true := by simpa using hb
      simp only [hq, this, ne_eq, not_true_eq_false, if_false, if_true, true_and, Except.ok.injEq]
      exact ⟨fun h => ⟨hb, h⟩, fun h => h.2⟩
    · have : bs.all (fun b => b == 0#8) = false := by simpa using hb
      simp [hq, this, hb]
  · simp [hq]

/-- The must-be-zero test rejects iff the queue bit or some unused byte is not zero. -/
theorem requireZero_rejects {q : BitVec 1} {bs : List Byte} {i : Instr} :
    (∃ why, requireZero q bs i = .error why) ↔ q ≠ 0#1 ∨ ∃ b ∈ bs, b ≠ 0#8 := by
  unfold requireZero
  by_cases hq : q = 0#1
  · by_cases hb : ∀ b ∈ bs, b = 0#8
    · have : bs.all (fun b => b == 0#8) = true := by simpa using hb
      simp only [hq, this, ne_eq, not_true_eq_false, if_false, if_true, false_or]
      constructor
      · rintro ⟨_, h⟩; cases h
      · rintro ⟨b, hm, hne⟩; exact absurd (hb b hm) hne
    · have : bs.all (fun b => b == 0#8) = false := by simpa using hb
      simp only [hq, this, ne_eq, not_true_eq_false, if_false, false_or]
      push Not at hb
      exact ⟨fun _ => hb, fun _ => ⟨_, rfl⟩⟩
  · simp [hq]

end Sys2Proof
end

