-- ==== Sys2Proof/Laws/Memory.lean ====
section
/-!
SUPPORT. One byte of memory: a read after a write, and the canonical form that every write
keeps.
-/

namespace Sys2Proof.Machine

@[simp] theorem Memory.read_nil (i : Nat) : Memory.read [] i = none := rfl

/-- A read of the slot just written gives the byte written. -/
@[simp] theorem Memory.read_write_same (m : Memory) (i : Nat) (b : Byte) :
    (m.write i b).read i = some b := by
  induction m with
  | nil => simp [Memory.write, Memory.read]
  | cons c m ih =>
    obtain ⟨a, v⟩ := c
    simp only [Memory.write]
    split
    · simp [Memory.read]
    · split
      · simp [Memory.read]
      · rename_i h
        simp [Memory.read, Ne.symm h, ih]

/-- A write leaves every other slot alone. -/
theorem Memory.read_write_other (m : Memory) {i j : Nat} (h : j ≠ i) (b : Byte) :
    (m.write i b).read j = m.read j := by
  induction m with
  | nil => simp [Memory.write, Memory.read, Ne.symm h]
  | cons c m ih =>
    obtain ⟨a, v⟩ := c
    simp only [Memory.write]
    split
    · simp [Memory.read, Ne.symm h]
    · split
      · rename_i h2
        subst h2
        simp [Memory.read, Ne.symm h]
      · simp [Memory.read, ih]

/-- The two read-after-write laws in one. -/
theorem Memory.read_write (m : Memory) (i j : Nat) (b : Byte) :
    (m.write i b).read j = if j = i then some b else m.read j := by
  by_cases h : j = i
  · subst h; simp
  · simp [h, Memory.read_write_other m h]

/-- The slots of a memory after a write: the old ones and the one written. -/
theorem Memory.mem_write {m : Memory} {i : Nat} {b : Byte} {c : Host.Cell}
    (h : c ∈ m.write i b) : c = (i, b) ∨ c ∈ m := by
  induction m with
  | nil => simpa [Memory.write] using h
  | cons d m ih =>
    obtain ⟨a, v⟩ := d
    simp only [Memory.write] at h
    split at h
    · simpa using h
    · split at h
      · rcases List.mem_cons.mp h with h | h
        · exact .inl h
        · exact .inr (List.mem_cons_of_mem _ h)
      · rcases List.mem_cons.mp h with h | h
        · exact .inr (by simp [h])
        · exact (ih h).imp_right (List.mem_cons_of_mem _)

/-- The canonical form says that the slots are strictly rising. -/
theorem Memory.wf_cons {a : Nat} {v : Byte} {m : Memory} :
    Memory.wf ((a, v) :: m) = true ↔ (∀ c ∈ m, a < c.1) ∧ m.wf = true := by
  induction m generalizing a v with
  | nil => simp [Memory.wf]
  | cons d m ih =>
    obtain ⟨b, w⟩ := d
    simp only [Memory.wf, Bool.and_eq_true, decide_eq_true_eq, List.forall_mem_cons]
    constructor
    · rintro ⟨hab, hm⟩
      exact ⟨⟨hab, fun c hc => Nat.lt_trans hab ((ih.mp hm).1 c hc)⟩, hm⟩
    · rintro ⟨⟨hab, -⟩, hm⟩
      exact ⟨hab, hm⟩

/-- A write keeps the canonical form. -/
theorem Memory.wf_write {m : Memory} (h : m.wf = true) (i : Nat) (b : Byte) :
    (m.write i b).wf = true := by
  induction m with
  | nil => rfl
  | cons d m ih =>
    obtain ⟨a, v⟩ := d
    obtain ⟨hlt, hm⟩ := Memory.wf_cons.mp h
    simp only [Memory.write]
    split
    · rename_i hi
      refine Memory.wf_cons.mpr ⟨?_, h⟩
      intro c hc
      rcases List.mem_cons.mp hc with hc | hc
      · simpa [hc] using hi
      · exact Nat.lt_trans hi (hlt c hc)
    · split
      · rename_i hi
        subst hi
        exact Memory.wf_cons.mpr ⟨hlt, hm⟩
      · rename_i h1 h2
        refine Memory.wf_cons.mpr ⟨?_, ih hm⟩
        intro c hc
        rcases Memory.mem_write hc with hc | hc
        · subst hc; simp only; omega
        · exact hlt c hc

/-- In canonical form a slot is listed at most once: two memories in canonical form that
read alike everywhere are equal data. -/
theorem Memory.eq_of_read {m n : Memory} (hm : m.wf = true) (hn : n.wf = true)
    (h : ∀ i, m.read i = n.read i) : m = n := by
  have above : ∀ {k : Memory} {i : Nat}, (∀ c ∈ k, i < c.1) → k.read i = none := by
    intro k i hk
    induction k with
    | nil => rfl
    | cons d k ih =>
      obtain ⟨a, v⟩ := d
      have := hk (a, v) (by simp)
      have hne : a ≠ i := by simp only at this; omega
      simp [Memory.read, hne, ih (fun c hc => hk c (by simp [hc]))]
  induction m generalizing n with
  | nil =>
    cases n with
    | nil => rfl
    | cons d n =>
      obtain ⟨a, v⟩ := d
      simpa [Memory.read] using h a
  | cons c m ih =>
    obtain ⟨a, v⟩ := c
    obtain ⟨hlt, hm'⟩ := Memory.wf_cons.mp hm
    cases n with
    | nil => simpa [Memory.read] using h a
    | cons d n =>
      obtain ⟨b, w⟩ := d
      obtain ⟨hlt', hn'⟩ := Memory.wf_cons.mp hn
      have hab : a = b := by
        rcases Nat.lt_trichotomy a b with hab | hab | hab
        · have ha := h a
          have hz : Memory.read n a = none := above (fun c hc => Nat.lt_trans hab (hlt' c hc))
          have hne : b ≠ a := by omega
          simp [Memory.read, hne, hz] at ha
        · exact hab
        · have hb := h b
          have hz : Memory.read m b = none := above (fun c hc => Nat.lt_trans hab (hlt c hc))
          have hne : a ≠ b := by omega
          simp [Memory.read, hne, hz] at hb
      subst hab
      have hv : v = w := by simpa [Memory.read] using h a
      subst hv
      refine congrArg _ (ih hm' hn' fun i => ?_)
      by_cases hi : a = i
      · subst hi; rw [above hlt, above hlt']
      · simpa [Memory.read, hi] using h i

end Sys2Proof.Machine
end

