-- ==== Sys2Proof/Laws/State.lean ====
section
/-!
SUPPORT. The small lemmas of the state record and its accessors: one per field and update,
so that no later proof unfolds a record update.
-/

namespace Sys2Proof.Machine

/-! ## The queue operand -/

@[simp] theorem State.queue_rx (s : State) : s.queue .rx = s.rxq := rfl
@[simp] theorem State.queue_tx (s : State) : s.queue .tx = s.txq := rfl
@[simp] theorem State.setQueue_rx (s : State) (v : Queue) :
    s.setQueue .rx v = { s with rxq := v } := rfl
@[simp] theorem State.setQueue_tx (s : State) (v : Queue) :
    s.setQueue .tx v = { s with txq := v } := rfl

@[simp] theorem State.queue_setQueue_same (s : State) (q : QSel) (v : Queue) :
    (s.setQueue q v).queue q = v := by cases q <;> rfl
theorem State.queue_setQueue_other (s : State) {q p : QSel} (h : p ≠ q) (v : Queue) :
    (s.setQueue q v).queue p = s.queue p := by cases q <;> cases p <;> first | rfl | exact absurd rfl h
@[simp] theorem State.setQueue_queue (s : State) (q : QSel) : s.setQueue q (s.queue q) = s := by
  cases q <;> rfl
@[simp] theorem State.setQueue_setQueue (s : State) (q : QSel) (v w : Queue) :
    (s.setQueue q v).setQueue q w = s.setQueue q w := by cases q <;> rfl

@[simp] theorem State.setQueue_txarm (s : State) (q : QSel) (v : Queue) :
    (s.setQueue q v).txarm = s.txarm := by cases q <;> rfl
@[simp] theorem State.setQueue_fcnt (s : State) (q : QSel) (v : Queue) :
    (s.setQueue q v).fcnt = s.fcnt := by cases q <;> rfl
@[simp] theorem State.setQueue_frame (s : State) (q : QSel) (v : Queue) :
    (s.setQueue q v).frame = s.frame := by cases q <;> rfl
@[simp] theorem State.setQueue_excl (s : State) (q : QSel) (v : Queue) :
    (s.setQueue q v).excl = s.excl := by cases q <;> rfl
@[simp] theorem State.setQueue_response (s : State) (q : QSel) (v : Queue) :
    (s.setQueue q v).response = s.response := by cases q <;> rfl
@[simp] theorem State.setQueue_lineOut (s : State) (q : QSel) (v : Queue) :
    (s.setQueue q v).lineOut = s.lineOut := by cases q <;> rfl
@[simp] theorem State.setQueue_trace (s : State) (q : QSel) (v : Queue) :
    (s.setQueue q v).trace = s.trace := by cases q <;> rfl

/-! ## The end of a main-port operation -/

section respond
variable (ok : Bool) (data : Option Byte) (s : State)
@[simp] theorem respond_rxq : (respond ok data s).rxq = s.rxq := rfl
@[simp] theorem respond_txq : (respond ok data s).txq = s.txq := rfl
@[simp] theorem respond_queue (q : QSel) : (respond ok data s).queue q = s.queue q := by
  cases q <;> rfl
@[simp] theorem respond_txarm : (respond ok data s).txarm = s.txarm := rfl
@[simp] theorem respond_fcnt : (respond ok data s).fcnt = s.fcnt := rfl
@[simp] theorem respond_frame : (respond ok data s).frame = s.frame := rfl
@[simp] theorem respond_excl : (respond ok data s).excl = false := rfl
@[simp] theorem respond_response :
    (respond ok data s).response = some { ill := false, ok := ok, data := data } := rfl
@[simp] theorem respond_lineOut : (respond ok data s).lineOut = none := rfl
@[simp] theorem respond_trace : (respond ok data s).trace = s.trace := rfl
end respond

/-! ## The end of a line-port operation -/

section lineEnd
variable (out : Option Byte) (s : State)
@[simp] theorem lineEnd_rxq : (lineEnd out s).rxq = s.rxq := rfl
@[simp] theorem lineEnd_txq : (lineEnd out s).txq = s.txq := rfl
@[simp] theorem lineEnd_queue (q : QSel) : (lineEnd out s).queue q = s.queue q := by
  cases q <;> rfl
@[simp] theorem lineEnd_txarm : (lineEnd out s).txarm = s.txarm := rfl
@[simp] theorem lineEnd_fcnt : (lineEnd out s).fcnt = s.fcnt := rfl
@[simp] theorem lineEnd_frame : (lineEnd out s).frame = s.frame := rfl
@[simp] theorem lineEnd_excl : (lineEnd out s).excl = false := rfl
@[simp] theorem lineEnd_response : (lineEnd out s).response = none := rfl
@[simp] theorem lineEnd_lineOut : (lineEnd out s).lineOut = out := rfl
@[simp] theorem lineEnd_trace : (lineEnd out s).trace = s.trace := rfl
end lineEnd

/-! ## Presenting a word -/

section present
variable (s : State) (w : PortWord)
@[simp] theorem State.present_rxq : (s.present w).rxq = s.rxq := rfl
@[simp] theorem State.present_txq : (s.present w).txq = s.txq := rfl
@[simp] theorem State.present_txarm : (s.present w).txarm = s.txarm := rfl
@[simp] theorem State.present_fcnt : (s.present w).fcnt = s.fcnt := rfl
@[simp] theorem State.present_frame : (s.present w).frame = s.frame := rfl
@[simp] theorem State.present_excl : (s.present w).excl = s.excl := rfl
@[simp] theorem State.present_response : (s.present w).response = s.response := rfl
@[simp] theorem State.present_lineOut : (s.present w).lineOut = s.lineOut := rfl
@[simp] theorem State.present_trace : (s.present w).trace = w :: s.trace := rfl
@[simp] theorem State.present_presented : (s.present w).presented = some (w, s) := rfl
end present

/-! ## Queue updates -/

section init
variable (q : Queue)
@[simp] theorem Queue.init_cap : q.init.cap = q.cap := rfl
@[simp] theorem Queue.init_buf : q.init.buf = q.buf := rfl
@[simp] theorem Queue.init_rd : q.init.rd = 0 := rfl
@[simp] theorem Queue.init_wr : q.init.wr = 0 := rfl
@[simp] theorem Queue.init_cnt : q.init.cnt = 0 := rfl
end init

/-! ## Frame slots -/

theorem Frame.get_set_same (f : Frame) (i : Fin 5) (v : Byte) : (f.set i v).get i = v := by
  match i with
  | 0 => rfl
  | 1 => rfl
  | 2 => rfl
  | 3 => rfl
  | 4 => rfl

theorem Frame.get_set_other (f : Frame) {i j : Fin 5} (h : j ≠ i) (v : Byte) :
    (f.set i v).get j = f.get j := by
  match i, j with
  | 0, 0 => exact absurd rfl h
  | 1, 1 => exact absurd rfl h
  | 2, 2 => exact absurd rfl h
  | 3, 3 => exact absurd rfl h
  | 4, 4 => exact absurd rfl h
  | 0, 1 => rfl
  | 0, 2 => rfl
  | 0, 3 => rfl
  | 0, 4 => rfl
  | 1, 0 => rfl
  | 1, 2 => rfl
  | 1, 3 => rfl
  | 1, 4 => rfl
  | 2, 0 => rfl
  | 2, 1 => rfl
  | 2, 3 => rfl
  | 2, 4 => rfl
  | 3, 0 => rfl
  | 3, 1 => rfl
  | 3, 2 => rfl
  | 3, 4 => rfl
  | 4, 0 => rfl
  | 4, 1 => rfl
  | 4, 2 => rfl
  | 4, 3 => rfl

/-- A frame is determined by its five slots. -/
theorem Frame.eq_of_get {f g : Frame} (h : ∀ i : Fin 5, f.get i = g.get i) : f = g := by
  cases f; cases g
  have h0 := h 0
  have h1 := h 1
  have h2 := h 2
  have h3 := h 3
  have h4 := h 4
  simp only [Frame.get] at h0 h1 h2 h3 h4
  simp [h0, h1, h2, h3, h4]

end Sys2Proof.Machine
end

