-- ==== Sys2Proof/Laws/Queue.lean ====
section
/-!
SUPPORT. What the queue primitives can do, said once: when PUT and GET answer what, and that
they keep the invariant of a queue and act on its contents as on a list.
-/

namespace Sys2Proof.Machine

/-! ## Index arithmetic -/

theorem nextIndex_lt {n i : Nat} (h : i < n) : nextIndex n i < n :=
  Nat.mod_lt _ (by omega)

theorem nextIndex_of_lt {n i : Nat} (h : i + 1 < n) : nextIndex n i = i + 1 :=
  Nat.mod_eq_of_lt h

theorem nextIndex_last {n : Nat} (h : 0 < n) : nextIndex n (n - 1) = 0 := by
  have : n - 1 + 1 = n := by omega
  simp [nextIndex, this]

/-! ## PUT -/

/-- A PUT with room stores the byte, moves WR and counts. -/
theorem Queue.put_of_room {q : Queue} (hw : q.wr < q.cap) (hc : q.cnt < q.cap) (b : Byte) :
    q.put b = .ok (true, { q with buf := q.buf.write q.wr b,
                                  wr := nextIndex q.cap q.wr, cnt := q.cnt + 1 }) := by
  simp [Queue.put, Queue.memWrite, hw, hc]

/-- A PUT without room changes nothing. -/
theorem Queue.put_of_full {q : Queue} (hc : q.cap ≤ q.cnt) (b : Byte) :
    q.put b = .ok (false, q) := by
  simp [Queue.put, Nat.not_lt.mpr hc]

/-- Everything a PUT that answers can do. -/
theorem Queue.put_cases {q q' : Queue} {b : Byte} {r : Bool} (h : q.put b = .ok (r, q')) :
    (r = false ∧ q.cap ≤ q.cnt ∧ q' = q) ∨
    (r = true ∧ q.cnt < q.cap ∧ q.wr < q.cap ∧
      q' = { q with buf := q.buf.write q.wr b, wr := nextIndex q.cap q.wr, cnt := q.cnt + 1 }) := by
  by_cases hc : q.cnt < q.cap
  · by_cases hw : q.wr < q.cap
    · rw [Queue.put_of_room hw hc] at h
      cases h
      exact .inr ⟨rfl, hc, hw, rfl⟩
    · simp [Queue.put, Queue.memWrite, hc, hw] at h
  · rw [Queue.put_of_full (Nat.not_lt.mp hc)] at h
    cases h
    exact .inl ⟨rfl, Nat.not_lt.mp hc, rfl⟩

/-! ## GET -/

/-- A GET on a non-empty queue whose oldest slot is written takes the byte at RD. -/
theorem Queue.get_of_byte {q : Queue} {v : Byte} (hr : q.rd < q.cap) (hc : 0 < q.cnt)
    (hv : q.buf.read q.rd = some v) :
    q.get = .ok (some v, { q with rd := nextIndex q.cap q.rd, cnt := q.cnt - 1 }) := by
  simp [Queue.get, Queue.memRead, hr, hc, hv]

/-- A GET on an empty queue changes nothing. -/
theorem Queue.get_of_empty {q : Queue} (hc : q.cnt = 0) : q.get = .ok (none, q) := by
  simp [Queue.get, hc]

/-- Everything a GET that answers can do. -/
theorem Queue.get_cases {q q' : Queue} {r : Option Byte} (h : q.get = .ok (r, q')) :
    (r = none ∧ q.cnt = 0 ∧ q' = q) ∨
    (∃ v, r = some v ∧ 0 < q.cnt ∧ q.rd < q.cap ∧ q.buf.read q.rd = some v ∧
      q' = { q with rd := nextIndex q.cap q.rd, cnt := q.cnt - 1 }) := by
  by_cases hc : 0 < q.cnt
  · by_cases hr : q.rd < q.cap
    · cases hv : q.buf.read q.rd with
      | none => simp [Queue.get, Queue.memRead, hc, hr, hv] at h
      | some v =>
        rw [Queue.get_of_byte hr hc hv] at h
        cases h
        exact .inr ⟨v, rfl, hc, hr, rfl, rfl⟩
    · simp [Queue.get, Queue.memRead, hc, hr] at h
  · rw [Queue.get_of_empty (by omega)] at h
    cases h
    exact .inl ⟨rfl, by omega, rfl⟩

/-! ## Slots -/

theorem Queue.slot_lt {q : Queue} (h : 0 < q.cap) (k : Nat) : q.slot k < q.cap :=
  Nat.mod_lt _ h

theorem Queue.slot_zero {q : Queue} (h : q.rd < q.cap) : q.slot 0 = q.rd := by
  simp [Queue.slot, Nat.mod_eq_of_lt h]

/-- Distinct offsets below N name distinct slots. -/
theorem Queue.slot_inj {q : Queue} {j k : Nat} (hj : j < q.cap) (hk : k < q.cap)
    (h : q.slot j = q.slot k) : j = k := by
  have h' : q.rd + j ≡ q.rd + k [MOD q.cap] := h
  have := Nat.ModEq.add_left_cancel' q.rd h'
  rwa [Nat.ModEq, Nat.mod_eq_of_lt hj, Nat.mod_eq_of_lt hk] at this

/-- After a GET the k-th oldest byte is the one that was the (k+1)-th oldest. -/
theorem Queue.slot_next (q : Queue) (c k : Nat) :
    ({ q with rd := nextIndex q.cap q.rd, cnt := c } : Queue).slot k = q.slot (k + 1) := by
  simp [Queue.slot, nextIndex, Nat.add_assoc, Nat.add_comm 1 k]

/-- The successor of the slot at offset k is the slot at offset k + 1. -/
theorem Queue.next_slot (q : Queue) (k : Nat) : nextIndex q.cap (q.slot k) = q.slot (k + 1) := by
  simp [Queue.slot, nextIndex, Nat.add_assoc]

/-! ## The invariant and the contents -/

theorem Queue.reset_inv {cap : Nat} (h : 1 ≤ cap) : (Queue.reset cap).Inv := by
  simp [Queue.Inv, Queue.InRange, Queue.Linked, Queue.OccupiedWritten, Queue.BufferOk,
    Queue.reset, Queue.slot, Memory.wf]
  omega

theorem Queue.init_inv {q : Queue} (h : q.Inv) : q.init.Inv := by
  obtain ⟨⟨hr, hw, hc⟩, -, -, hb⟩ := h
  refine ⟨⟨?_, ?_, ?_⟩, ?_, ?_, hb⟩
  all_goals simp [Queue.Linked, Queue.OccupiedWritten, Queue.slot]
  all_goals omega

theorem Queue.put_keeps_inv {q q' : Queue} {b : Byte} {r : Bool} (hi : q.Inv)
    (h : q.put b = .ok (r, q')) : q'.Inv := by
  rcases Queue.put_cases h with ⟨-, -, rfl⟩ | ⟨-, hc, hw, rfl⟩
  · exact hi
  obtain ⟨⟨hr, -, -⟩, hl, ho, hwf, hin⟩ := hi
  refine ⟨⟨hr, nextIndex_lt hw, hc⟩, ?_, ?_, Memory.wf_write hwf _ _, ?_⟩
  · show nextIndex q.cap q.wr = q.slot (q.cnt + 1)
    rw [hl, Queue.next_slot]
  · intro k hk
    show ((q.buf.write q.wr b).read (q.slot k)).isSome = true
    rw [Memory.read_write]
    split
    · rfl
    · rename_i hne
      have hk' : k < q.cnt + 1 := hk
      refine ho k ?_
      by_contra hge
      exact hne (by rw [show k = q.cnt by omega]; exact hl.symm)
  · intro c hmem
    rcases Memory.mem_write hmem with rfl | hmem
    · exact hw
    · exact hin c hmem

theorem Queue.get_keeps_inv {q q' : Queue} {r : Option Byte} (hi : q.Inv)
    (h : q.get = .ok (r, q')) : q'.Inv := by
  rcases Queue.get_cases h with ⟨-, -, rfl⟩ | ⟨v, -, hc, -, -, rfl⟩
  · exact hi
  obtain ⟨⟨hr, hw, hcc⟩, hl, ho, hb⟩ := hi
  refine ⟨⟨nextIndex_lt hr, hw, ?_⟩, ?_, ?_, hb⟩
  · show q.cnt - 1 ≤ q.cap
    omega
  · show q.wr = Queue.slot _ (q.cnt - 1)
    rw [Queue.slot_next, show q.cnt - 1 + 1 = q.cnt by omega]
    exact hl
  · intro k hk
    have hk' : k < q.cnt - 1 := hk
    show (q.buf.read (Queue.slot _ k)).isSome = true
    rw [Queue.slot_next]
    exact ho (k + 1) (by omega)

/-- In a queue that meets the invariant a GET always answers. -/
theorem Queue.get_answers {q : Queue} (hi : q.Inv) : ∃ r q', q.get = .ok (r, q') := by
  by_cases hc : q.cnt = 0
  · exact ⟨none, q, Queue.get_of_empty hc⟩
  · have h0 := hi.2.2.1 0 (by omega)
    rw [Queue.slot_zero hi.1.1] at h0
    obtain ⟨v, hv⟩ := Option.isSome_iff_exists.mp h0
    exact ⟨_, _, Queue.get_of_byte hi.1.1 (by omega) hv⟩

/-- In range a PUT always answers. -/
theorem Queue.put_answers {q : Queue} (hi : q.InRange) (b : Byte) :
    ∃ r q', q.put b = .ok (r, q') := by
  by_cases hc : q.cnt < q.cap
  · exact ⟨_, _, Queue.put_of_room hi.2.1 hc b⟩
  · exact ⟨_, _, Queue.put_of_full (by omega) b⟩

theorem Queue.contents_empty {q : Queue} (h : q.cnt = 0) : q.contents = [] := by
  simp [Queue.contents, h]

/-- The contents as a map, where every occupied slot is written. -/
theorem Queue.contents_eq_map {q : Queue} (ho : q.OccupiedWritten) :
    q.contents = (List.range q.cnt).map fun k => (q.buf.read (q.slot k)).getD 0#8 := by
  have key : ∀ l : List Nat, (∀ k ∈ l, (q.buf.read (q.slot k)).isSome = true) →
      l.filterMap (fun k => q.buf.read (q.slot k)) =
        l.map fun k => (q.buf.read (q.slot k)).getD 0#8 := by
    intro l
    induction l with
    | nil => intro _; rfl
    | cons k l ih =>
      intro hl
      obtain ⟨v, hv⟩ := Option.isSome_iff_exists.mp (hl k (by simp))
      simp only [List.filterMap_cons, List.map_cons, hv, Option.getD_some]
      rw [ih fun j hj => hl j (by simp [hj])]
  exact key _ fun k hk => ho k (List.mem_range.mp hk)

/-- The queue holds CNT bytes. -/
theorem Queue.contents_length {q : Queue} (ho : q.OccupiedWritten) :
    q.contents.length = q.cnt := by
  simp [Queue.contents_eq_map ho]

/-- A PUT with room appends the byte to the contents. -/
theorem Queue.contents_put {q q' : Queue} {b : Byte} (hi : q.Inv)
    (h : q.put b = .ok (true, q')) : q'.contents = q.contents ++ [b] := by
  have hi' := Queue.put_keeps_inv hi h
  rcases Queue.put_cases h with ⟨hf, -, -⟩ | ⟨-, hc, hw, rfl⟩
  · cases hf
  obtain ⟨-, hl, ho, -⟩ := hi
  rw [Queue.contents_eq_map hi'.2.2.1, Queue.contents_eq_map ho]
  show (List.range (q.cnt + 1)).map
    (fun k => ((q.buf.write q.wr b).read (q.slot k)).getD 0#8) = _
  rw [List.range_succ, List.map_append]
  congr 1
  · refine List.map_congr_left fun k hk => ?_
    have hk' : k < q.cnt := List.mem_range.mp hk
    rw [Memory.read_write_other]
    intro heq
    have := Queue.slot_inj (by omega) hc (heq.trans hl)
    omega
  · have hl' : q.slot q.cnt = q.wr := hl.symm
    simp [hl']

/-- A GET takes the head of the contents. -/
theorem Queue.contents_get {q q' : Queue} {v : Byte} (hi : q.Inv)
    (h : q.get = .ok (some v, q')) : q.contents = v :: q'.contents := by
  have hi' := Queue.get_keeps_inv hi h
  rcases Queue.get_cases h with ⟨hf, -, -⟩ | ⟨w, hw, hc, hr, hv, rfl⟩
  · cases hf
  cases hw
  obtain ⟨-, hl, ho, -⟩ := hi
  rw [Queue.contents_eq_map hi'.2.2.1, Queue.contents_eq_map ho]
  show _ = v :: (List.range (q.cnt - 1)).map
    (fun k => (q.buf.read (Queue.slot _ k)).getD 0#8)
  obtain ⟨n, hn⟩ : ∃ n, q.cnt = n + 1 := ⟨q.cnt - 1, by omega⟩
  rw [hn, List.range_succ_eq_map, List.map_cons, List.map_map, Queue.slot_zero hr, hv]
  simp only [Option.getD_some, Nat.add_sub_cancel, List.cons.injEq, true_and]
  exact List.map_congr_left fun k _ => by rw [Queue.slot_next]; rfl

end Sys2Proof.Machine
end

