-- ==== Sys2Proof/Laws/Ops.lean ====
section
/-!
SUPPORT. What each shared operation over the whole state can do, said once: the lemmas a
later proof cites instead of unfolding the operation.
-/

namespace Sys2Proof.Machine

/-! ## PUT and GET on a named queue -/

/-- Everything a PUT on a named queue can do. -/
theorem putTo_cases {q : QSel} {b : Byte} {s s1 : State} {r : Bool}
    (h : putTo q b s = .ok (r, s1)) :
    ∃ v, (s.queue q).put b = .ok (r, v) ∧ s1 = s.setQueue q v := by
  unfold putTo at h
  split at h
  · cases h
  · rename_i heq
    cases h
    exact ⟨_, heq, rfl⟩

theorem putTo_of_put {q : QSel} {b : Byte} {s : State} {r : Bool} {v : Queue}
    (h : (s.queue q).put b = .ok (r, v)) : putTo q b s = .ok (r, s.setQueue q v) := by
  simp [putTo, h]

/-- Everything a GET on a named queue can do. -/
theorem getFrom_cases {q : QSel} {s s1 : State} {r : Option Byte}
    (h : getFrom q s = .ok (r, s1)) :
    ∃ v, (s.queue q).get = .ok (r, v) ∧ s1 = s.setQueue q v := by
  unfold getFrom at h
  split at h
  · cases h
  · rename_i heq
    cases h
    exact ⟨_, heq, rfl⟩

theorem getFrom_of_get {q : QSel} {s : State} {r : Option Byte} {v : Queue}
    (h : (s.queue q).get = .ok (r, v)) : getFrom q s = .ok (r, s.setQueue q v) := by
  simp [getFrom, h]

/-! ## The link's services -/

/-- Everything the body of SENDB can do. -/
theorem sendByte_cases {b : Byte} {s s1 : State} {r : Bool} (h : sendByte b s = .ok (r, s1)) :
    ∃ v, s.txq.put b = .ok (r, v) ∧ s1 = { s with txq := v, txarm := s.txarm || r } := by
  unfold sendByte at h
  split at h
  · cases h
  all_goals
    rename_i heq
    obtain ⟨v, hv, rfl⟩ := putTo_cases heq
    cases h
    exact ⟨v, hv, by simp⟩

theorem sendByte_of_put {b : Byte} {s : State} {r : Bool} {v : Queue}
    (h : s.txq.put b = .ok (r, v)) :
    sendByte b s = .ok (r, { s with txq := v, txarm := s.txarm || r }) := by
  have := putTo_of_put (q := .tx) (s := s) h
  cases r <;> simp [sendByte, this]

/-- Everything the receive service can do. -/
theorem rxService_cases {d : Byte} {s s1 : State} (h : rxService d s = .ok s1) :
    ∃ r v, s.rxq.put d = .ok (r, v) ∧ s1 = { s with rxq := v } := by
  unfold rxService at h
  split at h
  · cases h
  · rename_i heq
    obtain ⟨v, hv, rfl⟩ := putTo_cases heq
    cases h
    exact ⟨_, v, hv, rfl⟩

theorem rxService_of_put {d : Byte} {s : State} {r : Bool} {v : Queue}
    (h : s.rxq.put d = .ok (r, v)) : rxService d s = .ok { s with rxq := v } := by
  simp [rxService, putTo_of_put (q := .rx) (s := s) h]

/-- Everything the transmit service can do. -/
theorem txService_cases {s s1 : State} {out : Option Byte} (h : txService s = .ok (out, s1)) :
    ∃ v, s.txq.get = .ok (out, v) ∧ s1 = { s with txq := v, txarm := s.txarm && out.isSome } := by
  unfold txService at h
  split at h
  · cases h
  all_goals
    rename_i heq
    obtain ⟨v, hv, rfl⟩ := getFrom_cases heq
    cases h
    exact ⟨v, hv, by simp⟩

theorem txService_of_get {s : State} {out : Option Byte} {v : Queue}
    (h : s.txq.get = .ok (out, v)) :
    txService s = .ok (out, { s with txq := v, txarm := s.txarm && out.isSome }) := by
  have := getFrom_of_get (q := .tx) (s := s) h
  cases out <;> simp [txService, this]

/-- Everything the gated transmit service can do. -/
theorem gatedTxService_cases {s s1 : State} {out : Option Byte}
    (h : gatedTxService s = .ok (out, s1)) :
    (s.txarm = false ∧ out = none ∧ s1 = s) ∨
    (s.txarm = true ∧ ∃ v, s.txq.get = .ok (out, v) ∧
      s1 = { s with txq := v, txarm := out.isSome }) := by
  unfold gatedTxService at h
  split at h
  · rename_i harm
    obtain ⟨v, hv, rfl⟩ := txService_cases h
    exact .inr ⟨harm, v, hv, by simp [harm]⟩
  · rename_i harm
    cases h
    exact .inl ⟨by simpa using harm, rfl, rfl⟩

theorem gatedTxService_of_disarmed {s : State} (ha : s.txarm = false) :
    gatedTxService s = .ok (none, s) := by
  simp [gatedTxService, ha]

theorem gatedTxService_of_armed {s : State} {out : Option Byte} {v : Queue}
    (ha : s.txarm = true) (h : s.txq.get = .ok (out, v)) :
    gatedTxService s = .ok (out, { s with txq := v, txarm := out.isSome }) := by
  simp [gatedTxService, ha, txService_of_get h]

/-! ## Several SENDBs -/

theorem Queue.pushed_nil (q : Queue) : q.pushed [] = q := rfl

/-- SENDB for each byte in order, in range: the bytes that fit are put, the rest fail. -/
theorem sendBytes_spec (bs : List Byte) {s : State} (hi : s.txq.InRange) :
    sendBytes bs s = .ok (decide (bs.length ≤ s.txq.free),
      { s with txq := s.txq.pushed (bs.take s.txq.free),
               txarm := s.txarm || decide (0 < bs.length ∧ 0 < s.txq.free) }) := by
  induction bs generalizing s with
  | nil => simp [sendBytes, Queue.pushed]
  | cons b bs ih =>
    obtain ⟨hr, hw, hc⟩ := hi
    by_cases hroom : s.txq.cnt < s.txq.cap
    · have hput := sendByte_of_put (Queue.put_of_room hw hroom b)
      obtain ⟨n, hn⟩ : ∃ n, s.txq.free = n + 1 :=
        ⟨s.txq.free - 1, by simp only [Queue.free]; omega⟩
      have hn' : s.txq.cap - (s.txq.cnt + 1) = n := by simp only [Queue.free] at hn; omega
      have hrest := ih (s := { s with
        txq := { s.txq with buf := s.txq.buf.write s.txq.wr b,
                            wr := nextIndex s.txq.cap s.txq.wr, cnt := s.txq.cnt + 1 },
        txarm := s.txarm || true }) ⟨hr, nextIndex_lt hw, hroom⟩
      simp only [sendBytes, hput, hrest]
      simp only [Queue.free] at hn
      simp [Queue.free, hn, hn', Queue.pushed, nextIndex]
    · have hput := sendByte_of_put (Queue.put_of_full (Nat.not_lt.mp hroom) b)
      have hz : s.txq.free = 0 := by simp only [Queue.free]; omega
      have hrest := ih (s := s) ⟨hr, hw, hc⟩
      simp only [Bool.or_false] at hput
      simp only [sendBytes, hput, hrest]
      simp [hz]

/-- Putting bytes that fit keeps the invariant, the capacity and RD, counts the bytes and
appends them to the contents. -/
theorem Queue.pushed_spec (bs : List Byte) {q : Queue} (hi : q.Inv) (hfit : bs.length ≤ q.free) :
    (q.pushed bs).Inv ∧ (q.pushed bs).cap = q.cap ∧ (q.pushed bs).rd = q.rd ∧
    (q.pushed bs).cnt = q.cnt + bs.length ∧ (q.pushed bs).contents = q.contents ++ bs := by
  induction bs generalizing q with
  | nil => simpa [Queue.pushed] using hi
  | cons b bs ih =>
    have hroom : q.cnt < q.cap := by
      simp only [Queue.free, List.length_cons] at hfit; omega
    have hput := Queue.put_of_room hi.1.2.1 hroom b
    have hinv := Queue.put_keeps_inv hi hput
    have hcon := Queue.contents_put hi hput
    have hfit' : bs.length ≤ q.cap - (q.cnt + 1) := by
      simp only [Queue.free, List.length_cons] at hfit; omega
    obtain ⟨h1, h2, h3, h4, h5⟩ := ih hinv hfit'
    refine ⟨h1, h2, h3, ?_, ?_⟩
    · rw [Queue.pushed]
      refine h4.trans ?_
      show q.cnt + 1 + bs.length = q.cnt + (bs.length + 1)
      omega
    · rw [Queue.pushed]
      refine h5.trans ?_
      rw [hcon]
      simp

/-- The slots that putting bytes stores to, and no other, change. -/
theorem Queue.pushed_frame (bs : List Byte) (q : Queue) {a : Nat} (hw : q.wr < q.cap)
    (ha : ∀ k, k < bs.length → a ≠ (q.wr + k) % q.cap) :
    (q.pushed bs).buf.read a = q.buf.read a := by
  induction bs generalizing q with
  | nil => rfl
  | cons b bs ih =>
    have h0 : a ≠ q.wr := by
      have := ha 0 (by simp)
      rwa [Nat.add_zero, Nat.mod_eq_of_lt hw] at this
    rw [Queue.pushed, ih _ (Nat.mod_lt _ (by omega))]
    · exact Memory.read_write_other _ h0 _
    · intro k hk
      have := ha (k + 1) (by simpa using hk)
      simp only [Nat.mod_add_mod]
      rwa [show q.wr + 1 + k = q.wr + (k + 1) by omega]

/-! ## The framer -/

/-- Everything the framer can do with a byte (42_packet_protocol R127). -/
theorem acceptByte_cases (c : Fin 5) (f : Frame) (v : Byte) :
    (c < 4 ∧ acceptByte c f v = (c + 1, f.set c v, false)) ∨
    (c = 4 ∧ v = chk f.command f.parameter1 f.parameter2 f.parameter3 ∧
      acceptByte c f v = (0, { f with checksum := v }, true)) ∨
    (c = 4 ∧ v ≠ chk f.command f.parameter1 f.parameter2 f.parameter3 ∧
      acceptByte c f v =
        (4, ⟨f.parameter1, f.parameter2, f.parameter3, v, v⟩, false)) := by
  by_cases hc : c < 4
  · exact .inl ⟨hc, by simp [acceptByte, hc]⟩
  · have h4 : c = 4 := by omega
    subst h4
    by_cases hv : v = chk f.command f.parameter1 f.parameter2 f.parameter3
    · exact .inr (.inl ⟨rfl, hv, by simp [acceptByte, Frame.set, Frame.valid, hv]⟩)
    · exact .inr (.inr ⟨rfl, hv, by simp [acceptByte, Frame.set, Frame.valid, hv, Frame.slide]⟩)

end Sys2Proof.Machine
end

