-- ==== Sys2Proof/Laws/Exec.lean ====
section
/-!
SUPPORT. Inversion: for each operation, everything it can do when it answers a next state.
A later proof cites these and never unfolds exec.
-/

namespace Sys2Proof.Machine

theorem exec_qinit (q : QSel) (s : State) :
    exec (.qinit q) s = .next (respond true none (s.setQueue q (s.queue q).init)) := rfl

theorem exec_qput_cases {q : QSel} {b : Byte} {s s1 : State}
    (h : exec (.qput q b) s = .next s1) :
    ∃ r v, (s.queue q).put b = .ok (r, v) ∧ s1 = respond r none (s.setQueue q v) := by
  simp only [exec, execQput] at h
  split at h
  · cases h
  · rename_i heq
    obtain ⟨v, hv, rfl⟩ := putTo_cases heq
    cases h
    exact ⟨_, v, hv, rfl⟩

theorem exec_qget_cases {q : QSel} {s s1 : State} (h : exec (.qget q) s = .next s1) :
    ∃ r v, (s.queue q).get = .ok (r, v) ∧ s1 = respond r.isSome r (s.setQueue q v) := by
  simp only [exec, execQget] at h
  split at h
  · cases h
  · rename_i heq
    obtain ⟨v, hv, rfl⟩ := getFrom_cases heq
    cases h
    exact ⟨_, v, hv, rfl⟩

theorem exec_recvb_cases {s s1 : State} (h : exec .recvb s = .next s1) :
    ∃ r v, s.rxq.get = .ok (r, v) ∧ s1 = respond r.isSome r { s with rxq := v } :=
  exec_qget_cases (q := .rx) h

theorem exec_sendb_cases {b : Byte} {s s1 : State} (h : exec (.sendb b) s = .next s1) :
    ∃ r v, s.txq.put b = .ok (r, v) ∧
      s1 = respond r none { s with txq := v, txarm := s.txarm || r } := by
  simp only [exec, execSendb] at h
  split at h
  · cases h
  · rename_i heq
    obtain ⟨v, hv, rfl⟩ := sendByte_cases heq
    cases h
    exact ⟨_, v, hv, rfl⟩

theorem exec_tryrx_cases {s s1 : State} (h : exec .tryrx s = .next s1) :
    (∃ v, s.rxq.get = .ok (none, v) ∧ s1 = respond false none { s with rxq := v }) ∨
    (∃ b v, s.rxq.get = .ok (some b, v) ∧
      s1 = respond (acceptByte s.fcnt s.frame b).2.2 none
        { s with rxq := v, fcnt := (acceptByte s.fcnt s.frame b).1,
                 frame := (acceptByte s.fcnt s.frame b).2.1 }) := by
  simp only [exec, execTryrx] at h
  split at h
  · cases h
  · rename_i heq
    obtain ⟨v, hv, rfl⟩ := getFrom_cases heq
    cases h
    exact .inl ⟨v, hv, rfl⟩
  · rename_i heq
    obtain ⟨v, hv, rfl⟩ := getFrom_cases heq
    cases h
    exact .inr ⟨_, v, hv, rfl⟩

theorem exec_tryrx_of_byte {s : State} {b : Byte} {v : Queue}
    (h : s.rxq.get = .ok (some b, v)) :
    exec .tryrx s = .next (respond (acceptByte s.fcnt s.frame b).2.2 none
      { s with rxq := v, fcnt := (acceptByte s.fcnt s.frame b).1,
               frame := (acceptByte s.fcnt s.frame b).2.1 }) := by
  simp [exec, execTryrx, getFrom_of_get (q := .rx) (s := s) h]

theorem exec_rxrdy_cases {d : Byte} {s s1 : State} (h : exec (.rxrdy d) s = .next s1) :
    ∃ r v, s.rxq.put d = .ok (r, v) ∧ s1 = lineEnd none { s with rxq := v } := by
  simp only [exec, execRxrdy] at h
  split at h
  · cases h
  · rename_i heq
    obtain ⟨r, v, hv, rfl⟩ := rxService_cases heq
    cases h
    exact ⟨r, v, hv, rfl⟩

theorem exec_txemp_cases {s s1 : State} (h : exec .txemp s = .next s1) :
    (s.txarm = false ∧ s1 = lineEnd none s) ∨
    (s.txarm = true ∧ ∃ out v, s.txq.get = .ok (out, v) ∧
      s1 = lineEnd out { s with txq := v, txarm := out.isSome }) := by
  simp only [exec, execTxemp] at h
  split at h
  · cases h
  · rename_i heq
    cases h
    rcases gatedTxService_cases heq with ⟨ha, rfl, rfl⟩ | ⟨ha, v, hv, rfl⟩
    · exact .inl ⟨ha, rfl⟩
    · exact .inr ⟨ha, _, v, hv, rfl⟩

theorem exec_rxtx_cases {d : Byte} {s s1 : State} (h : exec (.rxtx d) s = .next s1) :
    ∃ r v, s.rxq.put d = .ok (r, v) ∧
      ((s.txarm = false ∧ s1 = lineEnd none { s with rxq := v }) ∨
       (s.txarm = true ∧ ∃ out w, s.txq.get = .ok (out, w) ∧
          s1 = lineEnd out { s with rxq := v, txq := w, txarm := out.isSome })) := by
  simp only [exec, execRxtx] at h
  split at h
  · cases h
  · rename_i heq
    obtain ⟨r, v, hv, rfl⟩ := rxService_cases heq
    split at h
    · cases h
    · rename_i heq2
      cases h
      rcases gatedTxService_cases heq2 with ⟨ha, rfl, rfl⟩ | ⟨ha, w, hw, rfl⟩
      · exact ⟨r, v, hv, .inl ⟨ha, rfl⟩⟩
      · exact ⟨r, v, hv, .inr ⟨ha, _, w, hw, rfl⟩⟩

end Sys2Proof.Machine
end

