-- ==== Sys2Proof/Laws/PerInstr.lean ====
section
/-!
SUPPORT. Statements about every operation as syntax, one lemma per constructor.
Family `EncodedWord`: the word an operation is encoded as is presented on the operation's
port and is selected by exactly one row of the opcode map, the operation's own
(spec/30_encoding.md R66: "No two rows overlap").
-/

namespace Sys2Proof.Laws.EncodedWord

/-- The encoded word stands on the operation's port and exactly its row selects it. -/
def Statement (i : Instr) : Prop :=
  (encode i).port = i.port ∧ (encode i).selected = [i.mnemonic]

theorem qinit (q : QSel) : Statement (.qinit q) := by
  refine ⟨rfl, ?_⟩
  cases q <;> decide

theorem qget (q : QSel) : Statement (.qget q) := by
  refine ⟨rfl, ?_⟩
  cases q <;> decide

theorem recvb : Statement .recvb := by
  refine ⟨rfl, ?_⟩
  decide

theorem tryrx : Statement .tryrx := by
  refine ⟨rfl, ?_⟩
  decide

theorem txemp : Statement .txemp := by
  refine ⟨rfl, ?_⟩
  decide

theorem qput (q : QSel) (b0 : Byte) : Statement (.qput q b0) := by
  refine ⟨rfl, ?_⟩
  cases q <;>
    simp [encode, PortWord.selected, mainRows, List.filter, selects_commandWord, commandFields,
      mainFields, Instr.mnemonic, bitOfSel]

theorem sendb (b0 : Byte) : Statement (.sendb b0) := by
  refine ⟨rfl, ?_⟩
  simp [encode, PortWord.selected, mainRows, List.filter, selects_commandWord, commandFields,
    mainFields, Instr.mnemonic]

theorem send (b0 b1 b2 b3 : Byte) : Statement (.send b0 b1 b2 b3) := by
  refine ⟨rfl, ?_⟩
  simp [encode, PortWord.selected, mainRows, List.filter, selects_commandWord, commandFields,
    mainFields, Instr.mnemonic]

theorem rxrdy (d : Byte) : Statement (.rxrdy d) := by
  refine ⟨rfl, ?_⟩
  simp [encode, PortWord.selected, lineRows, List.filter, selects_eventWord, eventFields,
    Instr.mnemonic]

theorem rxtx (d : Byte) : Statement (.rxtx d) := by
  refine ⟨rfl, ?_⟩
  simp [encode, PortWord.selected, lineRows, List.filter, selects_eventWord, eventFields,
    Instr.mnemonic]

end Sys2Proof.Laws.EncodedWord
end

