-- ==== Sys2Proof/Laws/Step.lean ====
section
/-!
SUPPORT. Everything a step that answers a next state can do: it idles, or it runs the
operation the next word presented decodes to.
-/

namespace Sys2Proof.Machine

theorem State.presented_cases {s s1 : State} {w : PortWord} (h : s.presented = some (w, s1)) :
    ∃ ws, s.trace = w :: ws ∧ s1 = { s with trace := ws } := by
  unfold State.presented at h
  split at h
  · cases h
  · rename_i ws heq
    cases h
    exact ⟨ws, heq, rfl⟩

theorem step_cases {s s1 : State} (h : step s = .next s1) :
    (s.trace = [] ∧ s1 = s) ∨
    (∃ w ws i, s.trace = w :: ws ∧ decode w = .ok i ∧ exec i { s with trace := ws } = .next s1) := by
  unfold step at h
  split at h
  · split at h
    · rename_i hp
      cases h
      refine .inl ⟨?_, rfl⟩
      unfold State.presented at hp
      split at hp
      · rename_i ht; exact ht
      · cases hp
    · rename_i w s2 hp
      obtain ⟨ws, ht, rfl⟩ := State.presented_cases hp
      split at h
      · rename_i i hd
        exact .inr ⟨w, ws, i, ht, hd, h⟩
      · cases h
  · cases h

end Sys2Proof.Machine
end

