-- ==== Sys2Proof/Tests/Slice0.lean ====
section
/-!
SUPPORT. Tests. Decoding: words written out by spec/95_test_vectors.md V1, V2, V3 (and the
bits of spec/opcode_table.json). Single steps: rows of V7 to V13, V20, V21, V31, V34; the
expected values are the vectors' own. Witnesses: for each statement with hypotheses, a
concrete state and operands that meet them, each clause at a boundary value.
-/

namespace Sys2Proof.Tests

open Sys2Proof Sys2Proof.Machine

/-! ## Helpers -/

/-- A queue of capacity `cap` that holds these bytes, the oldest in slot `start`. -/
def queueWith (cap start : Nat) (bytes : List Byte) : Queue :=
  Queue.pushed bytes { cap := cap, buf := [], rd := start, wr := start, cnt := 0 }

/-- The reset state with other queues. -/
def block (rx tx : Queue) : State := { State.reset with rxq := rx, txq := tx }

/-- An empty queue of capacity 8. -/
def idle : Queue := queueWith 8 0 []

/-- A block that has an inbound queue only. -/
def inbound (q : Queue) : State := block q idle

/-- A block that has an outbound queue only. -/
def outbound (armed : Bool) (q : Queue) : State := { block idle q with txarm := armed }

/-- A block in mid-frame, one byte waiting. -/
def framing (c : Fin 5) (f : Frame) (v : Byte) : State :=
  { inbound (queueWith 8 7 [v]) with fcnt := c, frame := f }

/-- The next state, if there is one. -/
def next (r : Result) : Option State :=
  match r with
  | .next s => some s
  | .fault _ => none
  | .refused _ => none

/-- What a vector prints of a queue. -/
def view (q : Queue) : Memory × Nat × Nat × Nat := (q.buf, q.rd, q.wr, q.cnt)

/-- The answer of a main-port operation: ok and data. -/
def answer (s : State) : Option (Bool × Option Byte) := s.response.map fun r => (r.ok, r.data)

/-- Does a decoding give this operation? -/
def reads (w : PortWord) (i : Instr) : Bool :=
  match decode w with
  | .ok j => j == i
  | .error _ => false

/-- Is a word reserved for this reason, and not well formed? -/
def reserved (w : PortWord) (why : Reserved) : Bool :=
  match decode w with
  | .ok _ => false
  | .error e => e == why && !w.wf

/-! ## Decoding (V1, V2) -/

theorem test_decode_qinit :
    reads (.command 0b0001000000000000000000000000000000000000#40) (.qinit .rx) = true ∧
    reads (.command 0x1800000000#40) (.qinit .tx) = true := by decide

theorem test_decode_qput :
    reads (.command 0b0010100001000001000000000000000000000000#40) (.qput .tx 0x41#8) = true ∧
    reads (.command 0x2041000000#40) (.qput .rx 0x41#8) = true := by decide

theorem test_decode_qget :
    reads (.command 0b0011000000000000000000000000000000000000#40) (.qget .rx) = true ∧
    reads (.command 0x3800000000#40) (.qget .tx) = true := by decide

theorem test_decode_recvb :
    reads (.command 0b0100000000000000000000000000000000000000#40) .recvb = true := by decide

theorem test_decode_sendb :
    reads (.command 0b0101000001011010000000000000000000000000#40) (.sendb 0x5A#8) = true ∧
    reads (.command 0x50FF000000#40) (.sendb 0xFF#8) = true := by decide

theorem test_decode_tryrx :
    reads (.command 0b0110000000000000000000000000000000000000#40) .tryrx = true := by decide

theorem test_decode_send :
    reads (.command 0b0111000010000001000000100000001100000100#40)
      (.send 0x81#8 0x02#8 0x03#8 0x04#8) = true ∧
    reads (.command 0x70FFFFFFFF#40) (.send 0xFF#8 0xFF#8 0xFF#8 0xFF#8) = true := by decide

theorem test_decode_rxrdy :
    reads (.event 0b0101000001#10) (.rxrdy 0x41#8) = true ∧
    reads (.event 0x1FF#10) (.rxrdy 0xFF#8) = true := by decide

theorem test_decode_txemp :
    reads (.event 0b1000000000#10) .txemp = true := by decide

theorem test_decode_rxtx :
    reads (.event 0b1101000010#10) (.rxtx 0x42#8) = true ∧
    reads (.event 0x300#10) (.rxtx 0x00#8) = true := by decide

/-- V1, V2, the other direction. -/
theorem test_encode :
    encode (.qinit .tx) = .command 0x1800000000#40 ∧
    encode (.qput .tx 0xFF#8) = .command 0x28FF000000#40 ∧
    encode (.qget .tx) = .command 0x3800000000#40 ∧
    encode .recvb = .command 0x4000000000#40 ∧
    encode (.sendb 0x5A#8) = .command 0x505A000000#40 ∧
    encode .tryrx = .command 0x6000000000#40 ∧
    encode (.send 0x81#8 0x02#8 0x03#8 0x04#8) = .command 0x7081020304#40 ∧
    encode (.rxrdy 0xFF#8) = .event 0x1FF#10 ∧
    encode .txemp = .event 0x200#10 ∧
    encode (.rxtx 0x42#8) = .event 0x342#10 := by decide

/-- The table's numbering: 10 bits (16 counted in whole bytes) or 40 bits. -/
theorem test_decode_table_word :
    decodeTableWord 40 0x7081020304 = some (.send 0x81#8 0x02#8 0x03#8 0x04#8) ∧
    decodeTableWord 16 0x342 = some (.rxtx 0x42#8) ∧
    decodeTableWord 10 0x200 = some .txemp ∧
    decodeTableWord 40 0x8000000000 = none ∧
    decodeTableWord 16 0x400 = none := by decide

/-! ## Ill-formed words (V3), each refused for its reason -/

theorem test_ill_formed_rsv :
    reserved (.command 0x1100000000#40) .rsvNotZero = true ∧
    reserved (.command 0x2441000000#40) .rsvNotZero = true ∧
    reserved (.command 0x7181020304#40) .rsvNotZero = true := by decide

theorem test_ill_formed_opcode :
    reserved (.command 0x0000000000#40) .unassignedOpcode = true ∧
    reserved (.command 0x8000000000#40) .unassignedOpcode = true ∧
    reserved (.command 0xF000000000#40) .unassignedOpcode = true ∧
    reserved (.command 0x0041000000#40) .unassignedOpcode = true := by decide

theorem test_ill_formed_queue_bit :
    reserved (.command 0x4800000000#40) .queueBitNotZero = true ∧
    reserved (.command 0x585A000000#40) .queueBitNotZero = true ∧
    reserved (.command 0x6800000000#40) .queueBitNotZero = true ∧
    reserved (.command 0x7881020304#40) .queueBitNotZero = true := by decide

theorem test_ill_formed_unused_byte :
    reserved (.command 0x1000000001#40) .unusedByteNotZero = true ∧
    reserved (.command 0x1041000000#40) .unusedByteNotZero = true ∧
    reserved (.command 0x2041000100#40) .unusedByteNotZero = true ∧
    reserved (.command 0x3000000100#40) .unusedByteNotZero = true ∧
    reserved (.command 0x4000000001#40) .unusedByteNotZero = true ∧
    reserved (.command 0x505A010000#40) .unusedByteNotZero = true ∧
    reserved (.command 0x6000FF0000#40) .unusedByteNotZero = true := by decide

theorem test_ill_formed_event :
    reserved (.event 0x000#10) .noCondition = true ∧
    reserved (.event 0x0FF#10) .noCondition = true ∧
    reserved (.event 0x201#10) .dataNotZero = true ∧
    reserved (.event 0x2FF#10) .dataNotZero = true := by decide

/-! ## Single steps -/

/-- V10 row 2: the queued byte is discarded, its slot and TXARM kept. -/
theorem test_qinit_tx :
    (next (exec (.qinit .tx) (outbound true (queueWith 4 0 [0x41#8])))).map
      (fun t => (view t.txq, t.txarm, answer t)) =
    some (([(0, 0x41#8)], 0, 0, 0), true, some (true, none)) := by rfl

/-- V10 row 8: FCNT and F[0] are kept. -/
theorem test_qinit_rx :
    (next (exec (.qinit .rx) { framing 1 ⟨0x07#8, 0#8, 0#8, 0#8, 0#8⟩ 0x08#8 with
        rxq := queueWith 8 1 [0x08#8] })).map
      (fun t => (t.rxq.cnt, t.rxq.rd, t.rxq.wr, t.fcnt, t.frame.command)) =
    some (0, 0, 0, 1, 0x07#8) := by rfl

/-- V8 row 5: capacity 3, put at WR = 0 with RD = 1; full with RD = WR. -/
theorem test_qput_wraps :
    (next (exec (.qput .rx 0x04#8) (inbound (queueWith 3 1 [0x02#8, 0x03#8])))).map
      (fun t => (view t.rxq, answer t)) =
    some (([(0, 0x04#8), (1, 0x02#8), (2, 0x03#8)], 1, 1, 3), some (true, none)) := by rfl

/-- V7 row 2: capacity 1, full: nothing changes. -/
theorem test_qput_full :
    (next (exec (.qput .rx 0xBB#8) (inbound (queueWith 1 0 [0xAA#8])))).map
      (fun t => (view t.rxq, answer t)) =
    some (([(0, 0xAA#8)], 0, 0, 1), some (false, none)) := by rfl

/-- V8 row 7: RD goes from 2 to 0, not to 3. -/
theorem test_qget_wraps :
    (next (exec (.qget .rx) (inbound (queueWith 3 2 [0x03#8, 0x04#8])))).map
      (fun t => (view t.rxq, answer t)) =
    some (([(0, 0x04#8), (2, 0x03#8)], 0, 1, 1), some (true, some 0x03#8)) := by rfl

/-- V9 row 12: QGET tx of an empty queue with RD = WR = 2. -/
theorem test_qget_empty :
    (next (exec (.qget .tx) (outbound false (queueWith 4 2 [])))).map
      (fun t => (view t.txq, answer t)) =
    some (([], 2, 2, 0), some (false, none)) := by rfl

/-- V12 row 6. -/
theorem test_recvb :
    (next (exec .recvb (inbound (queueWith 2 1 [0x02#8, 0x04#8])))).map
      (fun t => (view t.rxq, answer t)) =
    some (([(0, 0x04#8), (1, 0x02#8)], 0, 1, 1), some (true, some 0x02#8)) := by rfl

/-- V11 row 14. -/
theorem test_recvb_empty :
    (next (exec .recvb (inbound (queueWith 8 1 [])))).map (fun t => (view t.rxq, answer t)) =
    some (([], 1, 1, 0), some (false, none)) := by rfl

/-- V11 row 11: a byte put at WR = 1 of 2, and the interrupt armed. -/
theorem test_sendb_arms :
    (next (exec (.sendb 0x99#8) (outbound false (queueWith 2 1 [])))).map
      (fun t => (view t.txq, t.txarm, answer t)) =
    some (([(1, 0x99#8)], 1, 0, 1), true, some (true, none)) := by rfl

/-- 41_serial_link R104: a SENDB that fails does not arm (V32, one byte). -/
theorem test_sendb_full :
    (next (exec (.sendb 0x3C#8) (outbound false (queueWith 2 0 [0x5A#8, 0xA5#8])))).map
      (fun t => (t.txq.cnt, t.txarm, answer t)) =
    some (2, false, some (false, none)) := by rfl

/-- V20 row 5: a match, the packet `81 02 03 04`, its flag and its code. -/
theorem test_tryrx_match :
    (next (exec .tryrx (framing 4 ⟨0x81#8, 0x02#8, 0x03#8, 0x04#8, 0#8⟩ 0x84#8))).map
      (fun t => (answer t, t.fcnt, t.frame, t.pktAckreq, t.pktCode)) =
    some (some (true, none), 0, ⟨0x81#8, 0x02#8, 0x03#8, 0x04#8, 0x84#8⟩, true, 0x01#7) := by rfl

/-- V21 row 5: a mismatch slides the window by one byte and keeps F[4]. -/
theorem test_tryrx_mismatch :
    (next (exec .tryrx (framing 4 ⟨0x10#8, 0x20#8, 0x31#8, 0x40#8, 0#8⟩ 0x40#8))).map
      (fun t => (answer t, t.fcnt, t.frame)) =
    some (some (false, none), 4, ⟨0x20#8, 0x31#8, 0x40#8, 0x40#8, 0x40#8⟩) := by rfl

/-- V34 row 4: exactly five free slots, the second frame wraps round the buffer's end. -/
theorem test_send_wraps :
    (next (exec (.send 0x05#8 0x06#8 0x07#8 0x08#8)
        (outbound true (queueWith 8 2 [0x03#8, 0x04#8, 0x04#8])))).map
      (fun t => (view t.txq, answer t)) =
    some (([(0, 0x08#8), (1, 0x0C#8), (2, 0x03#8), (3, 0x04#8), (4, 0x04#8), (5, 0x05#8),
            (6, 0x06#8), (7, 0x07#8)], 2, 2, 8), some (true, none)) := by rfl

/-- V31: three free slots: three bytes stay queued, ok = 0, and the interrupt is armed. -/
theorem test_send_short :
    (next (exec (.send 0x81#8 0x02#8 0x03#8 0x04#8)
        (outbound false (queueWith 8 0 [0x01#8, 0x02#8, 0x03#8, 0x04#8, 0x05#8])))).map
      (fun t => (t.txq.contents, t.txq.wr, t.txarm, answer t)) =
    some ([0x01#8, 0x02#8, 0x03#8, 0x04#8, 0x05#8, 0x81#8, 0x02#8, 0x03#8], 0, true,
      some (false, none)) := by rfl

/-- V12 row 5: a received byte is put at WR = 0 of 2. -/
theorem test_rxrdy :
    (next (exec (.rxrdy 0x04#8) (inbound (queueWith 2 1 [0x02#8])))).map
      (fun t => (view t.rxq, answer t, t.lineOut)) =
    some (([(0, 0x04#8), (1, 0x02#8)], 1, 1, 2), none, none) := by rfl

/-- V12 row 3: a byte that finds RXQ full is lost. -/
theorem test_rxrdy_overflow :
    (next (exec (.rxrdy 0x03#8) (inbound (queueWith 2 0 [0x01#8, 0x02#8])))).map
      (fun t => (view t.rxq, answer t, t.lineOut)) =
    some (([(0, 0x01#8), (1, 0x02#8)], 0, 0, 2), none, none) := by rfl

/-- V11 row 7: the oldest byte goes out, RD goes from 1 to 0. -/
theorem test_txemp_sends :
    (next (exec .txemp (outbound true (queueWith 2 1 [0xA5#8, 0x3C#8])))).map
      (fun t => (t.lineOut, t.txq.rd, t.txq.cnt, t.txarm, answer t)) =
    some (some 0xA5#8, 0, 1, true, none) := by rfl

/-- V11 row 9: armed and empty: it disarms and sends nothing. -/
theorem test_txemp_disarms :
    (next (exec .txemp (outbound true (queueWith 2 1 [])))).map
      (fun t => (t.lineOut, t.txarm)) = some (none, false) := by rfl

/-- V13 row 4: RXQ full, the received byte is dropped; the transmit half sends. -/
theorem test_rxtx_sends :
    (next (exec (.rxtx 0x44#8)
        { block (queueWith 1 0 [0x11#8]) (queueWith 2 0 [0x33#8]) with txarm := true })).map
      (fun t => (view t.rxq, t.lineOut, t.txq.rd, t.txq.cnt, t.txarm)) =
    some (([(0, 0x11#8)], 0, 0, 1), some 0x33#8, 1, 0, true) := by rfl

/-- V13 row 6: the byte is stored; the transmit half finds TXQ empty and disarms. -/
theorem test_rxtx_disarms :
    (next (exec (.rxtx 0x55#8)
        { block (queueWith 1 0 []) (queueWith 2 1 []) with txarm := true })).map
      (fun t => (view t.rxq, t.lineOut, t.txarm)) =
    some (([(0, 0x55#8)], 0, 0, 1), none, false) := by rfl

/-! ## Widths, response words, checksums -/

/-- 10_state R12: the widths the spec works out. -/
theorem test_widths :
    [1, 4, 5, 8, 256].map indexWidth = [1, 2, 3, 3, 8] ∧
    [1, 4, 5, 8, 256].map countWidth = [1, 3, 3, 4, 9] := by decide

/-- V4: the response words whose bits are all specified, and the reserved one. -/
theorem test_response_words :
    (Response.word ⟨false, true, some 0x11#8⟩ 0xAA#8) = 0x111#10 ∧
    (Response.word ⟨false, true, some 0xFF#8⟩ 0xAA#8) = 0x1FF#10 ∧
    (Response.word illegalResponse 0x00#8) = 0x200#10 := by decide

/-- V5: frames and near frames. -/
theorem test_checksums :
    wireFrame 0x12#8 0x34#8 0x56#8 0x78#8 = [0x12#8, 0x34#8, 0x56#8, 0x78#8, 0x08#8] ∧
    Frame.valid ⟨0x7F#8, 0xFF#8, 0x00#8, 0x80#8, 0x00#8⟩ = true ∧
    Frame.valid ⟨0x81#8, 0x02#8, 0x03#8, 0x04#8, 0x85#8⟩ = false ∧
    Frame.valid ⟨0xFF#8, 0xFF#8, 0xFF#8, 0xFF#8, 0xFF#8⟩ = false := by decide

/-! ## Witnesses: a state and operands that meet each statement's hypotheses -/

/-- A queue of capacity 1 that is full. -/
def single : Queue := queueWith 1 0 [0xAA#8]

/-- A queue of capacity 3 with RD = 2, the last slot, two bytes in it. -/
def wrapped : Queue := queueWith 3 2 [0x03#8, 0x04#8]

/-- A queue whose one occupied slot has never been written (no run reaches it). -/
def hollow : Queue := { cap := 3, buf := [], rd := 2, wr := 0, cnt := 1 }

/-- A queue whose read index is outside its buffer (no run reaches it). -/
def outside : Queue := { cap := 1, buf := [], rd := 1, wr := 0, cnt := 1 }

/-- A block armed, in mid-frame, with bytes in both queues and a word presented. -/
def busy : State :=
  { block wrapped (queueWith 3 2 [0x05#8, 0x06#8]) with
    txarm := true, fcnt := 4, frame := ⟨0x01#8, 0x02#8, 0x04#8, 0x08#8, 0#8⟩
    trace := [.event 0x141#10] }

theorem witness_DecodeEncodeRoundTrip :
    decode (.command 0x28FF000000#40) = .ok (.qput .tx 0xFF#8) := by rfl

theorem witness_DecoderAgreesWithMatchAndMaskTable :
    decode (.event 0x3FF#10) = .ok (.rxtx 0xFF#8) ∧
    decode (.event 0x0FF#10) = .error .noCondition := ⟨rfl, rfl⟩

theorem witness_StepRunsThePresentedOperation :
    busy.InRange ∧ busy.trace = [.event 0x141#10] ∧
    decode (.event 0x141#10) = .ok (.rxrdy 0x41#8) := ⟨by decide, rfl, rfl⟩

theorem witness_PlacedTableWordRunsNext :
    State.reset.InRange ∧ decodeTableWord 40 0x2041000000 = some (.qput .rx 0x41#8) := by decide

theorem witness_StepIdlesWithNoWordPresented :
    State.reset.InRange ∧ State.reset.trace = [] := by decide

theorem witness_StepRefusesReservedWords :
    State.reset.InRange ∧ (State.reset.present (.command 0x8000000000#40)).trace =
      [.command 0x8000000000#40] ∧
    decode (.command 0x8000000000#40) = .error .unassignedOpcode ∧
    decode (.event 0x201#10) = .error .dataNotZero := ⟨by decide, rfl, rfl, rfl⟩

theorem witness_StepRefusesStatesOutsideTheRanges : ¬ (inbound outside).InRange := by decide

theorem witness_ResetMeetsTheInvariant : (State.resetWith 1 256).Inv := by decide

theorem witness_EveryStepKeepsTheInvariant : busy.Inv ∧ ∃ t, step busy = .next t :=
  ⟨by decide, _, rfl⟩

theorem witness_QueueRangesHoldAfterEveryOperation :
    busy.InRange ∧ ∃ t, exec .tryrx busy = .next t := ⟨by decide, _, rfl⟩

theorem witness_EveryOperationCompletes : busy.Inv ∧ State.reset.Inv := by decide

theorem witness_GetOfAValuelessSlotFaults :
    (0 < hollow.cnt ∧ hollow.rd < hollow.cap ∧ hollow.buf.read hollow.rd = none) ∧
    (0 < outside.cnt ∧ outside.cap ≤ outside.rd) ∧
    (outbound true hollow).txarm = true := by decide

theorem witness_QinitResult :
    1 ≤ single.cap ∧ ∃ t, exec (.qinit .rx) (inbound single) = .next t := ⟨by decide, _, rfl⟩

/-- Room with WR the last slot; an empty queue of one slot; a full queue. -/
theorem witness_QputResult :
    (let q := queueWith 3 1 [0x02#8]; q.InRange ∧ q.cnt < q.cap ∧ q.wr = q.cap - 1) ∧
    (let q := queueWith 1 0 []; q.InRange ∧ q.cnt < q.cap) ∧
    (single.InRange ∧ single.cnt = single.cap) := by decide

/-- Empty; a byte with RD the last slot; a byte in the one slot. -/
theorem witness_QgetResult :
    (idle.InRange ∧ idle.cnt = 0) ∧
    (wrapped.InRange ∧ wrapped.rd = wrapped.cap - 1 ∧ 0 < wrapped.cnt ∧
      wrapped.buf.read wrapped.rd = some 0x03#8) ∧
    (single.InRange ∧ 0 < single.cnt ∧ single.buf.read single.rd = some 0xAA#8) := by decide

/-- One slot, where the increment stays at 0, and the last slot of three. -/
theorem witness_IndicesStepByOneModuloN :
    ((0 : Nat) < 1 ∧ 0 + 1 = 1) ∧ ((2 : Nat) < 3 ∧ 2 + 1 = 3) ∧ ((0 : Nat) < 3 ∧ 0 + 1 < 3) ∧
    busy.InRange ∧ ∃ t, exec (.send 0#8 0#8 0#8 0#8) busy = .next t :=
  ⟨by decide, by decide, by decide, by decide, _, rfl⟩

theorem witness_CountIsPutsMinusGets :
    (busy.queue .rx).InRange ∧
    (∀ i ∈ [Instr.rxrdy 0x41#8, .tryrx, .rxtx 0x42#8], i ≠ .qinit .rx) ∧
    (runFlow .rx [.rxrdy 0x41#8, .tryrx, .rxtx 0x42#8] busy).map (fun r => (r.1, r.2.1)) =
      some ([0x41#8, 0x42#8], [0x03#8]) := by decide

theorem witness_QueueIsFirstInFirstOutOverAnyRun :
    busy.Inv ∧ (∀ i ∈ [Instr.qinit .tx, .recvb, .qget .rx, .rxrdy 0x41#8], i ≠ .qinit .rx) ∧
    busy.rxq.contents = [0x03#8, 0x04#8] := by decide

theorem witness_BlockRefinesListQueues :
    busy.Inv ∧ busy.abs.rx.items = [0x03#8, 0x04#8] := by decide

theorem witness_RecvbResult :
    (State.reset.rxq.InRange ∧ State.reset.rxq.cnt = 0) ∧
    (busy.rxq.InRange ∧ 0 < busy.rxq.cnt ∧ busy.rxq.buf.read busy.rxq.rd = some 0x03#8) := by decide

theorem witness_SendbResult :
    (busy.txq.InRange ∧ busy.txq.cnt < busy.txq.cap) ∧
    ((outbound false single).txq.InRange ∧
      ¬ (outbound false single).txq.cnt < (outbound false single).txq.cap) := by decide

theorem witness_RxrdyResult :
    (busy.rxq.InRange ∧ busy.rxq.cnt < busy.rxq.cap) ∧
    ((inbound single).rxq.InRange ∧
      ¬ (inbound single).rxq.cnt < (inbound single).rxq.cap) := by decide

theorem witness_TxempWhileArmedResult :
    (let s := outbound true idle; s.txq.InRange ∧ s.txarm = true ∧ s.txq.cnt = 0) ∧
    (busy.txq.InRange ∧ busy.txarm = true ∧ 0 < busy.txq.cnt ∧
      busy.txq.buf.read busy.txq.rd = some 0x05#8) := by decide

/-- V9 row 3: disarmed with a byte queued. -/
theorem witness_TxempWhileDisarmedDoesNothing :
    let s := outbound false (queueWith 4 0 [0x41#8]); s.txarm = false ∧ s.txq.cnt = 1 := by decide

/-- V13: RXQ with room or full; disarmed, armed and empty, armed with a byte. -/
theorem witness_RxtxResult :
    (let s := inbound single; s.InRange ∧ s.txarm = false ∧ s.rxq.cnt = s.rxq.cap) ∧
    (let s := outbound true idle; s.InRange ∧ s.txarm = true ∧ s.txq.cnt = 0) ∧
    (busy.InRange ∧ busy.txarm = true ∧ 0 < busy.txq.cnt ∧
      busy.txq.buf.read busy.txq.rd = some 0x05#8) := by decide

theorem witness_RxtxIsRxrdyAndTxempInEitherOrder :
    busy.InRange ∧ ∃ t, exec (.rxtx 0x42#8) busy = .next t := ⟨by decide, _, rfl⟩

theorem witness_ArmedTransmitEventsDrainAndDisarm :
    (busy.Inv ∧ busy.txarm = true ∧ 2 ≤ busy.txq.cnt) ∧
    (let s := outbound true idle; s.Inv ∧ s.txarm = true ∧ 0 ≤ s.txq.cnt) := by decide

/-- Both directions: a SENDB that arms, a transmit event that disarms. -/
theorem witness_TxarmChangesOnlyBySendAndEmptyService :
    (State.reset.txq.InRange ∧
      (next (exec (.sendb 0x41#8) State.reset)).map State.txarm = some true ∧
      State.reset.txarm = false) ∧
    (let s := outbound true idle; s.txq.InRange ∧ s.txarm = true ∧
      (next (exec .txemp s)).map State.txarm = some false) := by decide

theorem witness_QueuedBytesStayArmedWithoutQputTx :
    busy.txq.InRange ∧ (∀ b, Instr.txemp ≠ .qput .tx b) ∧ (0 < busy.txq.cnt → busy.txarm = true) ∧
    (next (exec .txemp busy)).map (fun t => t.txq.cnt) = some 1 :=
  ⟨by decide, fun _ h => (nomatch h), by decide, by decide⟩

theorem witness_TryrxWithNoByteChangesNothing :
    State.reset.rxq.cnt = 0 ∧
    (let s : State := { busy with rxq := queueWith 3 2 [] }; s.rxq.cnt = 0 ∧ s.fcnt = 4) := by decide

/-- FCNT at both ends of 0 to 3. -/
theorem witness_TryrxAccumulatesBeforeTheFifthByte :
    ∀ c : Fin 5, (c = 0 ∨ c = 3) →
      let s : State := { busy with fcnt := c }
      s.rxq.InRange ∧ 0 < s.rxq.cnt ∧ s.rxq.buf.read s.rxq.rd = some 0x03#8 ∧ s.fcnt < 4 := by decide

/-- V20 row 5. -/
theorem witness_TryrxMatchDeliversThePacket :
    let s := framing 4 ⟨0x81#8, 0x02#8, 0x03#8, 0x04#8, 0#8⟩ 0x84#8
    s.rxq.InRange ∧ 0 < s.rxq.cnt ∧ s.rxq.buf.read s.rxq.rd = some 0x84#8 ∧ s.fcnt = 4 ∧
    0x84#8 = s.frame.command ^^^ s.frame.parameter1 ^^^ s.frame.parameter2 ^^^
      s.frame.parameter3 := by decide

/-- V21 row 5. -/
theorem witness_TryrxMismatchSlidesByOneByte :
    let s := framing 4 ⟨0x10#8, 0x20#8, 0x31#8, 0x40#8, 0#8⟩ 0x40#8
    s.rxq.InRange ∧ 0 < s.rxq.cnt ∧ s.rxq.buf.read s.rxq.rd = some 0x40#8 ∧ s.fcnt = 4 ∧
    0x40#8 ≠ s.frame.command ^^^ s.frame.parameter1 ^^^ s.frame.parameter2 ^^^
      s.frame.parameter3 := by decide

/-- Every FCNT, with the byte that matches and one that does not; and an empty RXQ. -/
theorem witness_FramerStateMachine :
    (∀ c : Fin 5, ∀ v ∈ [0x84#8, 0x85#8],
      let s := framing c ⟨0x81#8, 0x02#8, 0x03#8, 0x04#8, 0#8⟩ v
      0 < s.rxq.cnt ∧ s.rxq.buf.read s.rxq.rd = some v ∧ (next (exec .tryrx s)).isSome = true) ∧
    (next (exec .tryrx State.reset)).isSome = true ∧
    ((next (exec .recvb busy)).isSome = true ∧ Instr.recvb ≠ .tryrx) := by decide

/-- A packet delivered, then a run in which no TRYRX obtains a byte, then one more byte. -/
theorem witness_CurrentPacketLastsUntilTheNextByte :
    ((next (exec .tryrx (framing 4 ⟨0x81#8, 0x02#8, 0x03#8, 0x04#8, 0#8⟩ 0x84#8))).map fun t =>
      (t.answeredOk, noByteTaken [.tryrx, .sendb 0x00#8, .rxrdy 0x7F#8] t,
        (next (runOps [.tryrx, .sendb 0x00#8, .rxrdy 0x7F#8] t)).map fun u =>
          (u.rxq.cnt, u.rxq.buf.read u.rxq.rd))) =
    some (true, true, some (1, some 0x7F#8)) := by decide

/-- S2: the first matching window of the source's stream is the sixth; five bytes with no
match, and the boundary n = 5 of a stream that matches at once. -/
theorem witness_ResynchronisationFindsTheFirstMatchingWindow :
    (let s := inbound (queueWith 8 0 [0xFF#8, 0x04#8, 0x00#8, 0x00#8, 0x00#8, 0x04#8])
     s.Inv ∧ s.fcnt = 0 ∧ 6 ≤ s.rxq.contents.length ∧
     windowMatches s.rxq.contents 6 ∧ (∀ m, m < 6 → ¬ windowMatches s.rxq.contents m)) ∧
    (let s := inbound (queueWith 8 7 [0x04#8, 0x00#8, 0x00#8, 0x00#8, 0x04#8])
     s.Inv ∧ s.fcnt = 0 ∧ 5 ≤ s.rxq.contents.length ∧
     windowMatches s.rxq.contents 5 ∧ (∀ m, m < 5 → ¬ windowMatches s.rxq.contents m)) ∧
    (State.reset.Inv ∧ State.reset.fcnt = 0 ∧ 0 ≤ State.reset.rxq.contents.length ∧
     (∀ m, m < 1 → ¬ windowMatches State.reset.rxq.contents m)) :=
  ⟨by decide, by decide, by decide⟩

theorem witness_NoAnswerLineByteOrNewPacketDependsOnUnheldSlots :
    (SameButUnheldSlots State.reset
      { State.reset with frame := ⟨1#8, 2#8, 3#8, 4#8, 5#8⟩ }) ∧
    (SameButUnheldSlots busy { busy with frame := ⟨0x01#8, 0x02#8, 0x04#8, 0x08#8, 0xFF#8⟩ }) ∧
    ∃ t, exec .tryrx busy = .next t :=
  ⟨⟨rfl, by decide⟩, ⟨rfl, by decide⟩, _, rfl⟩

theorem witness_ChecksumLaws :
    Frame.valid ⟨0x81#8, 0x02#8, 0x03#8, 0x04#8, 0x84#8⟩ = true ∧
    0x00#8 ≠ (Frame.mk 0x81#8 0x02#8 0x03#8 0x04#8 0x84#8).get 0 ∧ (0 : Fin 5) ≠ 4 := by decide

/-- Five SENDBs of which two find room. -/
theorem witness_SendIsFiveSendbs :
    ∃ s0 s1 s2 s3 s4,
      exec (.sendb 1#8) (outbound false (queueWith 3 2 [9#8])) = .next s0 ∧
      exec (.sendb 2#8) s0 = .next s1 ∧ exec (.sendb 3#8) s1 = .next s2 ∧
      exec (.sendb 4#8) s2 = .next s3 ∧
      exec (.sendb (1#8 ^^^ 2#8 ^^^ 3#8 ^^^ 4#8)) s3 = .next s4 :=
  ⟨_, _, _, _, _, rfl, rfl, rfl, rfl, rfl⟩

/-- No slot free, one, exactly five. -/
theorem witness_SendQueuesWhatFits :
    (single.InRange ∧ single.free = 0) ∧ (wrapped.InRange ∧ wrapped.free = 1) ∧
    (let q := queueWith 8 6 [0x03#8, 0x04#8, 0x04#8]; q.InRange ∧ q.free = 5) := by decide

theorem witness_SendThenReceiveReconstructsThePacket :
    (State.reset.Inv ∧ State.reset.fcnt = 0 ∧ State.reset.rxq.cnt = 0 ∧ State.reset.txq.cnt = 0 ∧
      5 ≤ State.reset.txq.cap) ∧
    (State.resetWith 1 5).Inv ∧ 5 ≤ (State.resetWith 1 5).txq.cap := by decide

/-- A SEND that stores two bytes at slots 2 and 0 of three; slot 1 is not one of them. -/
theorem witness_BuffersChangeOnlyAtTheStoredSlots :
    (∃ t, exec (.send 1#8 2#8 3#8 4#8) (outbound false (queueWith 3 1 [9#8])) = .next t) ∧
    storedSlots (.send 1#8 2#8 3#8 4#8) .tx (outbound false (queueWith 3 1 [9#8])) = [2, 0] ∧
    1 ∉ storedSlots (.send 1#8 2#8 3#8 4#8) .tx (outbound false (queueWith 3 1 [9#8])) :=
  ⟨⟨_, rfl⟩, by decide, by decide⟩

theorem witness_InitAndGetFrame :
    (∃ t, exec (.qinit .tx) busy = .next t) ∧ (∃ t, exec (.qget .tx) busy = .next t) ∧
    (∃ t, exec .recvb busy = .next t) := ⟨⟨_, rfl⟩, ⟨_, rfl⟩, _, rfl⟩

theorem witness_PutFrame :
    (∃ t, exec (.qput .tx 1#8) busy = .next t) ∧ (∃ t, exec (.rxrdy 1#8) busy = .next t) :=
  ⟨⟨_, rfl⟩, _, rfl⟩

theorem witness_SendFrame :
    (∃ t, exec (.sendb 1#8) busy = .next t) ∧ (∃ t, exec (.send 1#8 2#8 3#8 4#8) busy = .next t) :=
  ⟨⟨_, rfl⟩, _, rfl⟩

theorem witness_TryrxFrame :
    (∃ t, exec .tryrx busy = .next t) ∧ (∃ t, exec .tryrx State.reset = .next t) :=
  ⟨⟨_, rfl⟩, _, rfl⟩

theorem witness_TransmitEventFrame :
    (∃ t, exec .txemp busy = .next t) ∧ (∃ t, exec (.rxtx 1#8) busy = .next t) :=
  ⟨⟨_, rfl⟩, _, rfl⟩

theorem witness_ContextsWriteOnlyTheirOwnState :
    (∃ t, exec (.rxtx 1#8) busy = .next t) ∧ Instr.port (.rxtx 1#8) = .line ∧
    (∃ t, exec .tryrx busy = .next t) ∧ Instr.port .tryrx = .main ∧ busy.txarm = true :=
  ⟨⟨_, rfl⟩, rfl, ⟨_, rfl⟩, rfl, rfl⟩

theorem witness_OutputsOfAnOperation :
    (∃ t, exec (.qget .rx) busy = .next t ∧ t.answeredOk = true) ∧
    (∃ t, exec .txemp busy = .next t ∧ t.lineOut = some 0x05#8) := ⟨⟨_, rfl, rfl⟩, _, rfl, rfl⟩

theorem witness_StatusOutputsShowTheRegisters :
    (State.resetWith 1 1).InRange ∧ busy.InRange := by decide

theorem witness_ResponseWordLayout :
    (Response.mk false true (some 0x11#8)).data = some 0x11#8 ∧ illegalResponse.data = none := by
  decide

theorem witness_CapacitiesAreFixedForLife : ∃ t, step busy = .next t := ⟨_, rfl⟩

end Sys2Proof.Tests
end

section
/-!
Properties of one queue that QINIT, PUT and GET keep are kept by every operation, because
these three are the only ways an operation changes a queue. The ranges of 10_state R13 are
such a property.
-/

namespace Sys2Proof.Machine

/-! ## Properties kept by the queue primitives -/

/-- A property of a queue that the three queue primitives keep. -/
structure Queue.Kept (P : Queue → Prop) : Prop where
  init : ∀ {q : Queue}, P q → P q.init
  put : ∀ {q q' : Queue} {b : Byte} {r : Bool}, q.put b = .ok (r, q') → P q → P q'
  get : ∀ {q q' : Queue} {r : Option Byte}, q.get = .ok (r, q') → P q → P q'

/-- Replacing one queue keeps a property of either queue if the replacement keeps it. -/
theorem State.setQueue_keeps {P : Queue → Prop} {s : State} {q : QSel} {v : Queue}
    (hv : P (s.queue q) → P v) (p : QSel) (hp : P (s.queue p)) :
    P ((s.setQueue q v).queue p) := by
  by_cases hpq : p = q
  · subst hpq
    rw [State.queue_setQueue_same]
    exact hv hp
  · rwa [State.queue_setQueue_other s hpq]

section Kept
variable {P : Queue → Prop} (hP : Queue.Kept P)
include hP

theorem sendBytes_keeps_queue (bs : List Byte) {s s1 : State} {r : Bool}
    (h : sendBytes bs s = .ok (r, s1)) (p : QSel) (hp : P (s.queue p)) : P (s1.queue p) := by
  induction bs generalizing s r with
  | nil => cases h; exact hp
  | cons b bs ih =>
    simp only [sendBytes] at h
    split at h
    · cases h
    rename_i hfirst
    split at h
    · cases h
    rename_i hrest
    cases h
    obtain ⟨v, hv, rfl⟩ := sendByte_cases hfirst
    exact ih hrest (State.setQueue_keeps (q := .tx) (hP.put hv) p hp)

theorem exec_send_keeps_queue {b0 b1 b2 b3 : Byte} {s s1 : State}
    (h : exec (.send b0 b1 b2 b3) s = .next s1) (p : QSel) (hp : P (s.queue p)) :
    P (s1.queue p) := by
  simp only [exec, execSend] at h
  split at h
  · cases h
  · rename_i hsend
    cases h
    rw [respond_queue]
    exact sendBytes_keeps_queue hP _ hsend p hp

/-- Every operation keeps such a property of either queue. -/
theorem exec_keeps_queue {i : Instr} {s s1 : State} (h : exec i s = .next s1) (p : QSel)
    (hp : P (s.queue p)) : P (s1.queue p) := by
  cases i with
  | qinit q =>
    cases h
    rw [respond_queue]
    exact State.setQueue_keeps hP.init p hp
  | qput q b =>
    obtain ⟨r, v, hv, rfl⟩ := exec_qput_cases h
    rw [respond_queue]
    exact State.setQueue_keeps (hP.put hv) p hp
  | qget q =>
    obtain ⟨r, v, hv, rfl⟩ := exec_qget_cases h
    rw [respond_queue]
    exact State.setQueue_keeps (hP.get hv) p hp
  | recvb =>
    obtain ⟨r, v, hv, rfl⟩ := exec_recvb_cases h
    exact State.setQueue_keeps (q := .rx) (hP.get hv) p hp
  | sendb b =>
    obtain ⟨r, v, hv, rfl⟩ := exec_sendb_cases h
    exact State.setQueue_keeps (q := .tx) (hP.put hv) p hp
  | tryrx =>
    obtain ⟨v, hv, rfl⟩ | ⟨b, v, hv, rfl⟩ := exec_tryrx_cases h
    · exact State.setQueue_keeps (q := .rx) (hP.get hv) p hp
    · exact State.setQueue_keeps (q := .rx) (hP.get hv) p hp
  | send b0 b1 b2 b3 => exact exec_send_keeps_queue hP h p hp
  | rxrdy d =>
    obtain ⟨r, v, hv, rfl⟩ := exec_rxrdy_cases h
    exact State.setQueue_keeps (q := .rx) (hP.put hv) p hp
  | txemp =>
    obtain ⟨-, rfl⟩ | ⟨-, out, v, hv, rfl⟩ := exec_txemp_cases h
    · rwa [lineEnd_queue]
    · exact State.setQueue_keeps (q := .tx) (hP.get hv) p hp
  | rxtx d =>
    obtain ⟨r, v, hv, hrest⟩ := exec_rxtx_cases h
    have hrx : P ((s.setQueue .rx v).queue p) :=
      State.setQueue_keeps (q := .rx) (hP.put hv) p hp
    obtain ⟨-, rfl⟩ | ⟨-, out, w, hw, rfl⟩ := hrest
    · exact hrx
    · exact State.setQueue_keeps (s := s.setQueue .rx v) (q := .tx) (hP.get hw) p hrx

end Kept

/-! ## The ranges of the queue registers -/

theorem State.inRange_iff {s : State} : s.InRange ↔ ∀ q, (s.queue q).InRange := by
  constructor
  · rintro ⟨hrx, htx⟩ (_ | _)
    · exact hrx
    · exact htx
  · exact fun h => ⟨h .rx, h .tx⟩

/-- The queue primitives keep the ranges of 10_state R13. -/
theorem Queue.inRange_kept : Queue.Kept Queue.InRange where
  init := by
    rintro q ⟨hr, -, -⟩
    have hcap : 0 < q.cap := Nat.zero_lt_of_lt hr
    exact ⟨hcap, hcap, Nat.zero_le _⟩
  put := by
    rintro q q' b r h ⟨hr, hw, hc⟩
    obtain ⟨-, -, rfl⟩ | ⟨-, hroom, -, rfl⟩ := Queue.put_cases h
    · exact ⟨hr, hw, hc⟩
    · exact ⟨hr, nextIndex_lt hw, hroom⟩
  get := by
    rintro q q' r h ⟨hr, hw, hc⟩
    obtain ⟨-, -, rfl⟩ | ⟨v, -, -, -, -, rfl⟩ := Queue.get_cases h
    · exact ⟨hr, hw, hc⟩
    · exact ⟨nextIndex_lt hr, hw, (Nat.sub_le _ _).trans hc⟩

theorem exec_keeps_inRange {i : Instr} {s s1 : State} (hs : s.InRange)
    (h : exec i s = .next s1) : s1.InRange :=
  State.inRange_iff.mpr fun q =>
    exec_keeps_queue Queue.inRange_kept h q (State.inRange_iff.mp hs q)

theorem State.resetWith_inRange {nRx nTx : Nat} (hRx : 1 ≤ nRx) (hTx : 1 ≤ nTx) :
    (State.resetWith nRx nTx).InRange :=
  ⟨(Queue.reset_inv hRx).1, (Queue.reset_inv hTx).1⟩

/-! ## Empty and full -/

@[simp] theorem Queue.empty_iff {q : Queue} : q.empty = true ↔ q.cnt = 0 := beq_iff_eq

@[simp] theorem Queue.full_iff {q : Queue} : q.full = true ↔ q.cnt = q.cap := beq_iff_eq

/-- Settles O13: the ranges hold after reset, and every operation keeps them because it
changes a queue only by the primitives that keep them. -/
theorem queueRangesHoldAfterEveryOperation : Obligations.QueueRangesHoldAfterEveryOperation :=
  ⟨fun _ _ => State.resetWith_inRange, fun _ _ _ => exec_keeps_inRange,
    fun _ => ⟨Queue.empty_iff, Queue.full_iff⟩⟩

end Sys2Proof.Machine
end

section
/-!
The byte queue (spec/40_byte_queue.md): the results of QINIT, QPUT and QGET (R82 to R88), and
the count of a queue as the bytes put minus the bytes got (R90), first for the queue
primitives, then for one operation, then for a run.
-/

namespace Sys2Proof.Machine

/-! ## The operations that carry the primitives -/

/-- QPUT answers as PUT on its queue answers. -/
theorem exec_qput_of_put {q : QSel} {b : Byte} {s : State} {r : Bool} {v : Queue}
    (h : (s.queue q).put b = .ok (r, v)) :
    exec (.qput q b) s = .next (respond r none (s.setQueue q v)) := by
  simp [exec, execQput, putTo_of_put h]

/-- QGET answers as GET on its queue answers. -/
theorem exec_qget_of_get {q : QSel} {s : State} {r : Option Byte} {v : Queue}
    (h : (s.queue q).get = .ok (r, v)) :
    exec (.qget q) s = .next (respond r.isSome r (s.setQueue q v)) := by
  simp [exec, execQget, getFrom_of_get h]

/-- SEND puts as many bytes of its frame as fit, and arms if one fits. -/
theorem exec_send_of_inRange {b0 b1 b2 b3 : Byte} {s : State} (hi : s.txq.InRange) :
    exec (.send b0 b1 b2 b3) s = .next (respond (decide (5 ≤ s.txq.free)) none
      { s with txq := s.txq.pushed ((wireFrame b0 b1 b2 b3).take s.txq.free),
               txarm := s.txarm || decide (0 < s.txq.free) }) := by
  simp [exec, execSend, sendBytes_spec _ hi, wireFrame, chk]

/-- SENDBs leave RXQ alone, whatever TXQ holds. -/
theorem sendBytes_rxq (bs : List Byte) {s s1 : State} {r : Bool}
    (h : sendBytes bs s = .ok (r, s1)) : s1.rxq = s.rxq := by
  induction bs generalizing s r with
  | nil => cases h; rfl
  | cons b bs ih =>
    simp only [sendBytes] at h
    split at h
    · cases h
    rename_i hfirst
    split at h
    · cases h
    rename_i hrest
    cases h
    obtain ⟨v, -, rfl⟩ := sendByte_cases hfirst
    rw [ih hrest]

theorem exec_send_rxq {b0 b1 b2 b3 : Byte} {s s1 : State}
    (h : exec (.send b0 b1 b2 b3) s = .next s1) : s1.rxq = s.rxq := by
  simp only [exec, execSend] at h
  split at h
  · cases h
  · rename_i hsend
    cases h
    rw [respond_rxq]
    exact sendBytes_rxq _ hsend

/-! ## The results of QINIT, QPUT and QGET -/

/-- Settles O16: an initialised queue has CNT = 0, which is its capacity only without a slot. -/
theorem qinitResult : Obligations.QinitResult := by
  refine fun q s => ⟨rfl, fun s1 hcap h => ?_⟩
  cases h
  rw [respond_queue, State.queue_setQueue_same]
  have hfull : ¬ (s.queue q).init.full = true := by
    rw [Queue.full_iff, Queue.init_cnt, Queue.init_cap]
    omega
  exact ⟨Queue.empty_iff.mpr rfl, Bool.eq_false_iff.mpr hfull⟩

/-- Settles O17: the cases of PUT with and without room; the byte is read back by the
read-after-write law of the buffer. -/
theorem qputResult : Obligations.QputResult := by
  rintro q b s ⟨-, hw, -⟩
  by_cases hroom : (s.queue q).cnt < (s.queue q).cap
  · have hput := exec_qput_of_put (Queue.put_of_room hw hroom b)
    refine ⟨by rw [if_pos hroom, hput]; rfl, fun s1 _ h => ?_⟩
    cases hput.symm.trans h
    rw [respond_queue, State.queue_setQueue_same]
    exact Memory.read_write_same _ _ _
  · have hput := exec_qput_of_put (Queue.put_of_full (Nat.not_lt.mp hroom) b)
    refine ⟨?_, fun s1 hlt _ => absurd hlt hroom⟩
    rw [if_neg hroom, hput, State.setQueue_queue]
    rfl

/-- Settles O18: the cases of GET with and without a byte. -/
theorem qgetResult : Obligations.QgetResult := by
  rintro q s ⟨hr, -, -⟩
  constructor
  · intro hempty
    rw [exec_qget_of_get (Queue.get_of_empty hempty), State.setQueue_queue]
    rfl
  · intro v hbyte hv
    rw [exec_qget_of_get (Queue.get_of_byte hr hbyte hv)]
    rfl

/-! ## The count over one primitive -/

/-- A PUT counts the byte iff a slot was free for it. -/
theorem Queue.put_cnt {q q' : Queue} {b : Byte} {r : Bool} (h : q.put b = .ok (r, q')) :
    q'.cnt = q.cnt + ([b].take q.free).length := by
  obtain ⟨-, hfull, rfl⟩ | ⟨-, hroom, -, rfl⟩ := Queue.put_cases h
  · simp [Queue.free, Nat.sub_eq_zero_of_le hfull]
  · have hfree : 1 ≤ q.free := Nat.sub_pos_of_lt hroom
    simp [Nat.min_eq_right hfree]

/-- A GET uncounts the byte it answers, if any. -/
theorem Queue.get_cnt {q q' : Queue} {r : Option Byte} (h : q.get = .ok (r, q')) :
    q'.cnt + r.toList.length = q.cnt := by
  obtain ⟨rfl, -, rfl⟩ | ⟨v, rfl, hbyte, -, -, rfl⟩ := Queue.get_cases h
  · rfl
  · exact Nat.sub_add_cancel hbyte

theorem Queue.pushed_cnt (bs : List Byte) (q : Queue) :
    (q.pushed bs).cnt = q.cnt + bs.length := by
  induction bs generalizing q with
  | nil => rfl
  | cons b bs ih =>
    rw [Queue.pushed, ih, List.length_cons, Nat.add_comm bs.length, ← Nat.add_assoc]

/-! ## The count over one operation -/

theorem exec_qput_cnt {p q : QSel} {b : Byte} {s s1 : State}
    (h : exec (.qput p b) s = .next s1) :
    (s1.queue q).cnt = (s.queue q).cnt + (bytesPut q (.qput p b) s).length := by
  obtain ⟨r, v, hv, rfl⟩ := exec_qput_cases h
  rw [respond_queue]
  by_cases hpq : p = q
  · subst hpq
    simpa [bytesPut] using Queue.put_cnt hv
  · simp [bytesPut, hpq, State.queue_setQueue_other s (Ne.symm hpq)]

theorem exec_qget_cnt {p q : QSel} {s s1 : State} (h : exec (.qget p) s = .next s1) :
    (s1.queue q).cnt + (bytesGot q (.qget p) s s1).length = (s.queue q).cnt := by
  obtain ⟨r, v, hv, rfl⟩ := exec_qget_cases h
  rw [respond_queue]
  by_cases hpq : p = q
  · subst hpq
    simpa [bytesGot] using Queue.get_cnt hv
  · simp [bytesGot, hpq, State.queue_setQueue_other s (Ne.symm hpq)]

/-- TRYRX shows the byte it took in the slot FCNT named; on an empty RXQ there is none. -/
theorem exec_tryrx_cnt {q : QSel} {s s1 : State} (h : exec .tryrx s = .next s1) :
    (s1.queue q).cnt + (bytesGot q .tryrx s s1).length = (s.queue q).cnt := by
  obtain ⟨v, hv, rfl⟩ | ⟨b, v, hv, rfl⟩ := exec_tryrx_cases h
  · obtain ⟨-, hempty, rfl⟩ | ⟨w, hsome, -⟩ := Queue.get_cases hv
    · cases q <;> simp [bytesGot, hempty]
    · cases hsome
  · have hcnt : v.cnt + 1 = s.rxq.cnt := Queue.get_cnt hv
    cases q with
    | rx => simpa [bytesGot, show s.rxq.cnt ≠ 0 by omega] using hcnt
    | tx => simp [bytesGot]

theorem exec_send_cnt {q : QSel} {b0 b1 b2 b3 : Byte} {s s1 : State}
    (hi : (s.queue q).InRange) (h : exec (.send b0 b1 b2 b3) s = .next s1) :
    (s1.queue q).cnt = (s.queue q).cnt + (bytesPut q (.send b0 b1 b2 b3) s).length := by
  cases q with
  | rx => rw [State.queue_rx, exec_send_rxq h]; rfl
  | tx =>
    cases (exec_send_of_inRange hi).symm.trans h
    exact Queue.pushed_cnt _ _

/-- The line byte of a transmit event is the byte it took from TXQ; disarmed, or on an empty
TXQ, there is none. -/
theorem exec_txemp_cnt {q : QSel} {s s1 : State} (h : exec .txemp s = .next s1) :
    (s1.queue q).cnt + (bytesGot q .txemp s s1).length = (s.queue q).cnt := by
  obtain ⟨-, rfl⟩ | ⟨-, out, v, hv, rfl⟩ := exec_txemp_cases h
  · cases q <;> rfl
  · cases q with
    | rx => rfl
    | tx => exact Queue.get_cnt hv

/-- RXTX puts its byte into RXQ and takes its line byte from TXQ. -/
theorem exec_rxtx_cnt {q : QSel} {d : Byte} {s s1 : State} (h : exec (.rxtx d) s = .next s1) :
    (s1.queue q).cnt + (bytesGot q (.rxtx d) s s1).length =
      (s.queue q).cnt + (bytesPut q (.rxtx d) s).length := by
  obtain ⟨r, v, hv, hline⟩ := exec_rxtx_cases h
  cases q with
  | rx => obtain ⟨-, rfl⟩ | ⟨-, out, w, -, rfl⟩ := hline <;> exact Queue.put_cnt hv
  | tx =>
    obtain ⟨-, rfl⟩ | ⟨-, out, w, hw, rfl⟩ := hline
    · rfl
    · exact Queue.get_cnt hw

/-- Every operation but QINIT of the queue counts the bytes it puts and uncounts those it
gets (40_byte_queue R90). -/
theorem exec_cnt {i : Instr} {q : QSel} {s s1 : State} (hi : (s.queue q).InRange)
    (hq : i ≠ .qinit q) (h : exec i s = .next s1) :
    (s1.queue q).cnt + (bytesGot q i s s1).length =
      (s.queue q).cnt + (bytesPut q i s).length := by
  cases i with
  | qinit p =>
    cases h
    have hpq : q ≠ p := fun hpq => hq (hpq ▸ rfl)
    rw [respond_queue, State.queue_setQueue_other s hpq]
    rfl
  | qput p b => exact exec_qput_cnt h
  | qget p => exact exec_qget_cnt h
  | recvb =>
    obtain ⟨r, v, hv, rfl⟩ := exec_recvb_cases h
    cases q with
    | rx => exact Queue.get_cnt hv
    | tx => rfl
  | sendb b =>
    obtain ⟨r, v, hv, rfl⟩ := exec_sendb_cases h
    cases q with
    | rx => rfl
    | tx => exact Queue.put_cnt hv
  | tryrx => exact exec_tryrx_cnt h
  | send b0 b1 b2 b3 => exact exec_send_cnt hi h
  | rxrdy d =>
    obtain ⟨r, v, hv, rfl⟩ := exec_rxrdy_cases h
    cases q with
    | rx => exact Queue.put_cnt hv
    | tx => rfl
  | txemp => exact exec_txemp_cnt h
  | rxtx d => exact exec_rxtx_cnt h

/-! ## The count over a run -/

/-- A run that answers starts with an operation that answers and goes on from there. -/
theorem runFlow_cons_cases {q : QSel} {i : Instr} {is : List Instr} {s s2 : State}
    {puts gots : List Byte} (h : runFlow q (i :: is) s = some (puts, gots, s2)) :
    ∃ s1 ps gs, exec i s = .next s1 ∧ runFlow q is s1 = some (ps, gs, s2) ∧
      puts = bytesPut q i s ++ ps ∧ gots = bytesGot q i s s1 ++ gs := by
  simp only [runFlow] at h
  split at h
  · rename_i s1 hexec
    split at h
    · rename_i ps gs s3 hrun
      cases h
      exact ⟨s1, ps, gs, hexec, hrun, rfl, rfl⟩
    · cases h
  · cases h
  · cases h

/-- A run keeps what the queue primitives keep, of either queue. -/
theorem runFlow_keeps_queue {P : Queue → Prop} (hP : Queue.Kept P) {q : QSel}
    (is : List Instr) {s s2 : State} {puts gots : List Byte}
    (h : runFlow q is s = some (puts, gots, s2)) (p : QSel) (hp : P (s.queue p)) :
    P (s2.queue p) := by
  induction is generalizing s puts gots with
  | nil => cases h; exact hp
  | cons i is ih =>
    obtain ⟨s1, ps, gs, hexec, hrun, -, -⟩ := runFlow_cons_cases h
    exact ih hrun (exec_keeps_queue hP hexec p hp)

/-- Over a run without a QINIT of the queue the counts of its operations add up. -/
theorem runFlow_cnt {q : QSel} (is : List Instr) {s s2 : State} {puts gots : List Byte}
    (hi : (s.queue q).InRange) (hq : ∀ i ∈ is, i ≠ .qinit q)
    (h : runFlow q is s = some (puts, gots, s2)) :
    (s2.queue q).cnt + gots.length = (s.queue q).cnt + puts.length := by
  induction is generalizing s puts gots with
  | nil => cases h; rfl
  | cons i is ih =>
    obtain ⟨s1, ps, gs, hexec, hrun, rfl, rfl⟩ := runFlow_cons_cases h
    obtain ⟨hhead, htail⟩ := List.forall_mem_cons.mp hq
    have hstep := exec_cnt hi hhead hexec
    have hrest := ih (exec_keeps_queue Queue.inRange_kept hexec q hi) htail hrun
    rw [List.length_append, List.length_append]
    omega

/-- Settles O20: the counts add up by induction on the run, and the run keeps the ranges. -/
theorem countIsPutsMinusGets : Obligations.CountIsPutsMinusGets := by
  intro q ops s s1 puts gots hi hq h
  obtain ⟨-, -, hle⟩ := runFlow_keeps_queue Queue.inRange_kept ops h q hi
  exact ⟨runFlow_cnt ops hi hq h, hle⟩

end Sys2Proof.Machine
end

section
/-!
The serial link (spec/41_serial_link.md): the results of RECVB, SENDB, RXRDY and an armed
TXEMP (R102 to R109): RECVB from QGET rx, the others from what their queue's PUT or GET answers.
-/

namespace Sys2Proof.Machine

/-! ## The operations that carry the services -/

/-- RECVB is the GET of the byte queue on RXQ (41_serial_link section 2). -/
theorem exec_recvb_eq_qget_rx (s : State) : exec .recvb s = exec (.qget .rx) s := rfl

/-- SENDB answers as PUT on TXQ answers, and arms if the byte was put. -/
theorem exec_sendb_of_put {b : Byte} {s : State} {r : Bool} {v : Queue}
    (h : s.txq.put b = .ok (r, v)) :
    exec (.sendb b) s = .next (respond r none { s with txq := v, txarm := s.txarm || r }) := by
  simp [exec, execSendb, sendByte_of_put h]

/-- RXRDY ignores what PUT on RXQ answers. -/
theorem exec_rxrdy_of_put {d : Byte} {s : State} {r : Bool} {v : Queue}
    (h : s.rxq.put d = .ok (r, v)) :
    exec (.rxrdy d) s = .next (lineEnd none { s with rxq := v }) := by
  simp [exec, execRxrdy, rxService_of_put h]

/-- An armed TXEMP sends what GET on TXQ answers, and stays armed iff that is a byte. -/
theorem exec_txemp_of_armed {s : State} {out : Option Byte} {v : Queue}
    (ha : s.txarm = true) (h : s.txq.get = .ok (out, v)) :
    exec .txemp s = .next (lineEnd out { s with txq := v, txarm := out.isSome }) := by
  simp [exec, execTxemp, gatedTxService_of_armed ha h]

/-! ## The results of RECVB, SENDB, RXRDY and an armed TXEMP -/

/-- Settles O23: RECVB is QGET rx, and has its result. -/
theorem recvbResult : Obligations.RecvbResult := by
  intro s hi
  rw [exec_recvb_eq_qget_rx]
  exact qgetResult .rx s hi

/-- Settles O25: the cases of PUT on TXQ with and without room; a failed PUT leaves TXARM. -/
theorem sendbResult : Obligations.SendbResult := by
  rintro b s ⟨-, hw, -⟩
  by_cases hroom : s.txq.cnt < s.txq.cap
  · rw [if_pos hroom, exec_sendb_of_put (Queue.put_of_room hw hroom b), Bool.or_true]
    rfl
  · rw [if_neg hroom, exec_sendb_of_put (Queue.put_of_full (Nat.not_lt.mp hroom) b),
      Bool.or_false]
    rfl

/-- Settles O26: the cases of PUT on RXQ with and without room. -/
theorem rxrdyResult : Obligations.RxrdyResult := by
  rintro d s ⟨-, hw, -⟩
  by_cases hroom : s.rxq.cnt < s.rxq.cap
  · rw [if_pos hroom, exec_rxrdy_of_put (Queue.put_of_room hw hroom d)]
    rfl
  · rw [if_neg hroom, exec_rxrdy_of_put (Queue.put_of_full (Nat.not_lt.mp hroom) d)]
    rfl

/-- Settles O27: the cases of GET on TXQ without and with a byte; a byte leaves TXARM set,
which is what it was. -/
theorem txempWhileArmedResult : Obligations.TxempWhileArmedResult := by
  rintro s ⟨hr, -, -⟩ harm
  constructor
  · intro hempty
    rw [exec_txemp_of_armed harm (Queue.get_of_empty hempty)]
    rfl
  · intro v hbyte hv
    rw [exec_txemp_of_armed harm (Queue.get_of_byte hr hbyte hv), Option.isSome_some, ← harm]
    rfl

end Sys2Proof.Machine
end

section
/-!
The packet protocol (spec/42_packet_protocol.md): TRYRX with and without a byte (R123 to R125),
the framer as a state machine that only TRYRX moves (R127), the current packet over a run
(R128), and SEND as five SENDBs (R130).
-/

namespace Sys2Proof.Machine

/-! ## The framer's reaction to a byte -/

/-- Before the fifth byte the framer places the byte and counts. -/
theorem acceptByte_of_lt {c : Fin 5} (hc : c < 4) (f : Frame) (v : Byte) :
    acceptByte c f v = (c + 1, f.set c v, false) := by
  simp [acceptByte, hc]

theorem acceptByte_of_match {f : Frame} {v : Byte}
    (hv : v = chk f.command f.parameter1 f.parameter2 f.parameter3) :
    acceptByte 4 f v = (0, { f with checksum := v }, true) := by
  simp [acceptByte, Frame.set, Frame.valid, hv]

theorem acceptByte_of_mismatch {f : Frame} {v : Byte}
    (hv : v ≠ chk f.command f.parameter1 f.parameter2 f.parameter3) :
    acceptByte 4 f v = (4, ⟨f.parameter1, f.parameter2, f.parameter3, v, v⟩, false) := by
  simp [acceptByte, Frame.set, Frame.valid, hv, Frame.slide]

/-! ## TRYRX -/

theorem exec_tryrx_of_empty {s : State} (hempty : s.rxq.cnt = 0) :
    exec .tryrx s = .next (respond false none s) := by
  have hget : getFrom .rx s = .ok (none, s.setQueue .rx s.rxq) :=
    getFrom_of_get (q := .rx) (Queue.get_of_empty hempty)
  simp [exec, execTryrx, hget]

/-- TRYRX on a written head slot: GET moves RXQ on, and the framer reacts to the byte. -/
theorem exec_tryrx_of_accept {s : State} {v : Byte} {c : Fin 5} {f : Frame} {ok : Bool}
    (hr : s.rxq.rd < s.rxq.cap) (hbyte : 0 < s.rxq.cnt) (hv : s.rxq.buf.read s.rxq.rd = some v)
    (hacc : acceptByte s.fcnt s.frame v = (c, f, ok)) :
    exec .tryrx s = .next (respond ok none
      { s with rxq := { s.rxq with rd := nextIndex s.rxq.cap s.rxq.rd, cnt := s.rxq.cnt - 1 },
               fcnt := c, frame := f }) := by
  rw [exec_tryrx_of_byte (Queue.get_of_byte hr hbyte hv), hacc]

/-- A TRYRX that answers on a queue that holds a byte found RD in range. -/
theorem exec_tryrx_rd_lt {s s1 : State} (h : exec .tryrx s = .next s1)
    (hbyte : 0 < s.rxq.cnt) : s.rxq.rd < s.rxq.cap := by
  have hget : ∃ r v, s.rxq.get = .ok (r, v) := by
    obtain ⟨v, hv, -⟩ | ⟨b, v, hv, -⟩ := exec_tryrx_cases h
    · exact ⟨_, v, hv⟩
    · exact ⟨_, v, hv⟩
  obtain ⟨r, v, hv⟩ := hget
  obtain ⟨-, hempty, -⟩ | ⟨-, -, -, hr, -, -⟩ := Queue.get_cases hv
  · omega
  · exact hr

/-- What a TRYRX that obtains a byte leaves in the framer is the framer's reaction to it. -/
theorem exec_tryrx_framer {s s1 : State} {v : Byte} {c : Fin 5} {f : Frame} {ok : Bool}
    (h : exec .tryrx s = .next s1) (hbyte : 0 < s.rxq.cnt)
    (hv : s.rxq.buf.read s.rxq.rd = some v)
    (hacc : acceptByte s.fcnt s.frame v = (c, f, ok)) :
    s1.fcnt = c ∧ s1.frame = f ∧ s1.answeredOk = ok := by
  cases (exec_tryrx_of_accept (exec_tryrx_rd_lt h hbyte) hbyte hv hacc).symm.trans h
  exact ⟨rfl, rfl, rfl⟩

/-- A TRYRX answers ok = 1 only by a byte that matches at FCNT = 4 (R125, R127). -/
theorem exec_tryrx_delivers {s s1 : State} (h : exec .tryrx s = .next s1)
    (hok : s1.answeredOk = true) :
    s1.fcnt = 0 ∧ s1.frame =
      { s.frame with
        checksum := chk s.frame.command s.frame.parameter1 s.frame.parameter2
          s.frame.parameter3 } := by
  obtain ⟨v, -, rfl⟩ | ⟨b, v, -, rfl⟩ := exec_tryrx_cases h
  · cases hok
  · replace hok : (acceptByte s.fcnt s.frame b).2.2 = true := hok
    rw [respond_fcnt, respond_frame]
    obtain ⟨-, hacc⟩ | ⟨-, rfl, hacc⟩ | ⟨-, -, hacc⟩ := acceptByte_cases s.fcnt s.frame b
    · rw [hacc] at hok; cases hok
    · rw [hacc]; exact ⟨rfl, rfl⟩
    · rw [hacc] at hok; cases hok

/-! ## SEND -/

/-- SENDBs of several bytes that answer are the first one and then the rest. -/
theorem sendBytes_cons_cases {b : Byte} {bs : List Byte} {s t : State} {r : Bool}
    (h : sendBytes (b :: bs) s = .ok (r, t)) :
    ∃ r1 s1 rs, sendByte b s = .ok (r1, s1) ∧ sendBytes bs s1 = .ok (rs, t) ∧
      r = (r1 && rs) := by
  simp only [sendBytes] at h
  split at h
  · cases h
  · rename_i r1 s1 hfirst
    split at h
    · cases h
    · rename_i rs s2 hrest
      cases h
      exact ⟨r1, s1, rs, hfirst, hrest, rfl⟩

/-- SENDBs of several bytes put them one after another, and go on where one fails. -/
theorem sendBytes_cons_of_put {b : Byte} {bs : List Byte} {s t : State} {r rs : Bool} {v : Queue}
    (hput : s.txq.put b = .ok (r, v))
    (hrest : sendBytes bs { s with txq := v, txarm := s.txarm || r } = .ok (rs, t)) :
    sendBytes (b :: bs) s = .ok (r && rs, t) := by
  simp [sendBytes, sendByte_of_put hput, hrest]

/-- Everything SEND can do: the SENDBs of its wire frame. -/
theorem exec_send_cases {b0 b1 b2 b3 : Byte} {s s1 : State}
    (h : exec (.send b0 b1 b2 b3) s = .next s1) :
    ∃ r t, sendBytes (wireFrame b0 b1 b2 b3) s = .ok (r, t) ∧ s1 = respond r none t := by
  simp only [exec, execSend] at h
  split at h
  · cases h
  · rename_i r t hsend
    cases h
    exact ⟨r, t, hsend, rfl⟩

theorem exec_send_of_sendBytes {b0 b1 b2 b3 : Byte} {s t : State} {r : Bool}
    (h : sendBytes (wireFrame b0 b1 b2 b3) s = .ok (r, t)) :
    exec (.send b0 b1 b2 b3) s = .next (respond r none t) := by
  have hchk : sendBytes [b0, b1, b2, b3, chk b0 b1 b2 b3] s = .ok (r, t) := h
  simp [exec, execSend, hchk]

/-! ## What leaves the framer alone -/

theorem sendBytes_keeps_framer (bs : List Byte) {s s1 : State} {r : Bool}
    (h : sendBytes bs s = .ok (r, s1)) : s1.fcnt = s.fcnt ∧ s1.frame = s.frame := by
  induction bs generalizing s r with
  | nil => cases h; exact ⟨rfl, rfl⟩
  | cons b bs ih =>
    obtain ⟨r1, s2, rs, hfirst, hrest, -⟩ := sendBytes_cons_cases h
    obtain ⟨v, -, rfl⟩ := sendByte_cases hfirst
    exact ⟨(ih hrest).1, (ih hrest).2⟩

theorem exec_send_keeps_framer {b0 b1 b2 b3 : Byte} {s s1 : State}
    (h : exec (.send b0 b1 b2 b3) s = .next s1) : s1.fcnt = s.fcnt ∧ s1.frame = s.frame := by
  obtain ⟨r, t, hsend, rfl⟩ := exec_send_cases h
  rw [respond_fcnt, respond_frame]
  exact sendBytes_keeps_framer _ hsend

/-- No operation but TRYRX moves the framer (R127). -/
theorem exec_keeps_framer {i : Instr} {s s1 : State} (hi : i ≠ .tryrx)
    (h : exec i s = .next s1) : s1.fcnt = s.fcnt ∧ s1.frame = s.frame := by
  cases i with
  | qinit q => cases h; simp
  | qput q b =>
    obtain ⟨r, v, -, rfl⟩ := exec_qput_cases h
    simp
  | qget q =>
    obtain ⟨r, v, -, rfl⟩ := exec_qget_cases h
    simp
  | recvb =>
    obtain ⟨r, v, -, rfl⟩ := exec_recvb_cases h
    exact ⟨rfl, rfl⟩
  | sendb b =>
    obtain ⟨r, v, -, rfl⟩ := exec_sendb_cases h
    exact ⟨rfl, rfl⟩
  | tryrx => exact absurd rfl hi
  | send b0 b1 b2 b3 => exact exec_send_keeps_framer h
  | rxrdy d =>
    obtain ⟨r, v, -, rfl⟩ := exec_rxrdy_cases h
    exact ⟨rfl, rfl⟩
  | txemp =>
    obtain ⟨-, rfl⟩ | ⟨-, out, v, -, rfl⟩ := exec_txemp_cases h
    · exact ⟨rfl, rfl⟩
    · exact ⟨rfl, rfl⟩
  | rxtx d =>
    obtain ⟨r, v, -, ⟨-, rfl⟩ | ⟨-, out, w, -, rfl⟩⟩ := exec_rxtx_cases h
    · exact ⟨rfl, rfl⟩
    · exact ⟨rfl, rfl⟩

/-- A run that answers starts with an operation that answers and goes on from there. -/
theorem runOps_cons_cases {i : Instr} {is : List Instr} {s s2 : State}
    (h : runOps (i :: is) s = .next s2) :
    ∃ s1, exec i s = .next s1 ∧ runOps is s1 = .next s2 := by
  simp only [runOps] at h
  split at h
  · exact ⟨_, ‹_›, h⟩
  · cases h
  · cases h

/-- Where the first operation answers, no TRYRX of a run obtains a byte iff that operation
does not and none of the rest does. -/
theorem noByteTaken_cons {i : Instr} {is : List Instr} {s s1 : State}
    (h : exec i s = .next s1) :
    noByteTaken (i :: is) s = true ↔
      (i ≠ .tryrx ∨ s.rxq.cnt = 0) ∧ noByteTaken is s1 = true := by
  simp [noByteTaken, h]

/-- A run in which no TRYRX obtains a byte leaves the framer alone (R128). -/
theorem runOps_keeps_framer (is : List Instr) {s s2 : State} (hno : noByteTaken is s = true)
    (h : runOps is s = .next s2) : s2.fcnt = s.fcnt ∧ s2.frame = s.frame := by
  induction is generalizing s with
  | nil => cases h; exact ⟨rfl, rfl⟩
  | cons i is ih =>
    obtain ⟨s1, hexec, hrun⟩ := runOps_cons_cases h
    obtain ⟨hhead, htail⟩ := (noByteTaken_cons hexec).mp hno
    have hstep : s1.fcnt = s.fcnt ∧ s1.frame = s.frame := by
      by_cases hi : i = .tryrx
      · subst hi
        cases (exec_tryrx_of_empty (hhead.resolve_left (· rfl))).symm.trans hexec
        exact ⟨rfl, rfl⟩
      · exact exec_keeps_framer hi hexec
    rw [← hstep.1, ← hstep.2]
    exact ih htail hrun

/-! ## The obligations -/

/-- Settles O38: TRYRX does what the framer does with its byte, and nothing else moves it. -/
theorem framerStateMachine : Obligations.FramerStateMachine := by
  refine ⟨fun _ _ => rfl, fun _ _ _ => exec_keeps_framer, fun s s1 h => ⟨fun hempty => ?_,
    fun v hbyte hv => ?_⟩⟩
  · cases (exec_tryrx_of_empty hempty).symm.trans h
    exact ⟨rfl, rfl, rfl⟩
  · have hplace : ∀ c : Fin 5, c < 4 → s.fcnt = c →
        s1.fcnt = c + 1 ∧ s1.frame = s.frame.set c v ∧ s1.answeredOk = false := by
      rintro c hc rfl
      exact exec_tryrx_framer h hbyte hv (acceptByte_of_lt hc _ _)
    refine ⟨hplace 0 (by decide), hplace 1 (by decide), hplace 2 (by decide),
      hplace 3 (by decide), fun hfour => ⟨fun hmatch => ?_, fun hmismatch => ?_⟩⟩
    · exact exec_tryrx_framer h hbyte hv (hfour ▸ acceptByte_of_match hmatch)
    · exact exec_tryrx_framer h hbyte hv (hfour ▸ acceptByte_of_mismatch hmismatch)

/-- Settles O39: a delivery leaves FCNT = 0, so the next byte goes to F[0]. -/
theorem currentPacketLastsUntilTheNextByte : Obligations.CurrentPacketLastsUntilTheNextByte := by
  intro s s1 h hok
  obtain ⟨hfcnt, hframe⟩ := exec_tryrx_delivers h hok
  constructor
  · simp [State.pktCommand, State.pktP1, State.pktP2, State.pktP3, State.pktAckreq,
      State.pktCode, hframe, chk]
  · intro ops s2 hno hrun
    obtain ⟨hfcnt2, hframe2⟩ := runOps_keeps_framer ops hno hrun
    refine ⟨hframe2, fun v s3 hbyte hv htry => ?_⟩
    have hzero : s2.fcnt = 0 := hfcnt2.trans hfcnt
    have hacc : acceptByte s2.fcnt s2.frame v = (1, { s1.frame with command := v }, false) := by
      rw [hzero, hframe2]
      exact acceptByte_of_lt (by decide) _ _
    exact (exec_tryrx_framer htry hbyte hv hacc).2.1

/-- Settles O43: the five PUTs on TXQ are the same ones, because no SENDB reads what the one
before it left on the ports. -/
theorem sendIsFiveSendbs : Obligations.SendIsFiveSendbs := by
  intro b0 b1 b2 b3 s s0 s1 s2 s3 s4 h0 h1 h2 h3 h4
  obtain ⟨r0, v0, hput0, rfl⟩ := exec_sendb_cases h0
  obtain ⟨r1, v1, hput1, rfl⟩ := exec_sendb_cases h1
  obtain ⟨r2, v2, hput2, rfl⟩ := exec_sendb_cases h2
  obtain ⟨r3, v3, hput3, rfl⟩ := exec_sendb_cases h3
  obtain ⟨r4, v4, hput4, rfl⟩ := exec_sendb_cases h4
  have hsend : sendBytes (wireFrame b0 b1 b2 b3) s = _ :=
    sendBytes_cons_of_put hput0 <| sendBytes_cons_of_put hput1 <|
    sendBytes_cons_of_put hput2 <| sendBytes_cons_of_put hput3 <|
    sendBytes_cons_of_put hput4 (bs := []) rfl
  rw [exec_send_of_sendBytes hsend]
  simp [respond, State.answeredOk, Bool.and_assoc]

/-- Settles O34: GET on an empty RXQ changes nothing, and the framer is not reached. -/
theorem tryrxWithNoByteChangesNothing : Obligations.TryrxWithNoByteChangesNothing :=
  fun _ => exec_tryrx_of_empty

/-- Settles O35: the frame is the old one with the byte in the slot FCNT names. -/
theorem tryrxAccumulatesBeforeTheFifthByte : Obligations.TryrxAccumulatesBeforeTheFifthByte := by
  rintro s v ⟨hr, -, -⟩ hbyte hv hlt
  exact ⟨s.frame.set s.fcnt v, Frame.get_set_same _ _ _,
    fun _ hk => Frame.get_set_other _ hk _,
    exec_tryrx_of_accept hr hbyte hv (acceptByte_of_lt hlt _ _)⟩

/-- Settles O36: the byte passes the validator, which compares it with the XOR. -/
theorem tryrxMatchDeliversThePacket : Obligations.TryrxMatchDeliversThePacket := by
  rintro s v ⟨hr, -, -⟩ hbyte hv hfour hmatch
  exact exec_tryrx_of_accept hr hbyte hv (hfour ▸ acceptByte_of_match hmatch)

end Sys2Proof.Machine
end

section
/-!
The encoding (spec/30_encoding.md): the decoder and the encoder are inverse (section 5), the
decoder agrees with the opcode map by match and mask (sections 3 and 4), and the words it
rejects are the reserved encodings of R67.
-/

namespace Sys2Proof

/-! ## Decoding an encoded operation -/

theorem decode_encode (i : Instr) : decode (encode i) = .ok i := by
  cases i <;>
    simp [decode, encode, mainFields, decodeCommandFields, decodeEventFields, requireZero]

/-! ## Encoding a decoded word -/

/-- A command word's fields that decode are the fields of the operation's own encoding. -/
theorem encode_of_decodeCommandFields {f : CommandFields} {i : Instr}
    (h : decodeCommandFields f = .ok i) : encode i = .command (commandWord f) := by
  obtain ⟨op, q, rsv, b0, b1, b2, b3⟩ := f
  by_cases hrsv : rsv = 0#3
  · subst hrsv
    simp only [decodeCommandFields, ne_eq, not_true_eq_false, if_false] at h
    split at h
    case h_8 => cases h
    all_goals
      rename_i hop
      obtain ⟨hq, hzero, rfl⟩ := requireZero_eq_ok.mp h
      obtain rfl := op_of_toNat hop
      simp_all [encode, mainFields]
  · simp [decodeCommandFields, hrsv] at h

theorem encode_of_decodeEventFields {f : EventFields} {i : Instr}
    (h : decodeEventFields f = .ok i) : encode i = .event (eventWord f) := by
  obtain ⟨txe, rxr, d⟩ := f
  rcases bit_cases txe with rfl | rfl <;> rcases bit_cases rxr with rfl | rfl
  · cases h
  · cases h; rfl
  · by_cases hd : d = 0#8
    · subst hd; cases h; rfl
    · simp [decodeEventFields, hd] at h
  · cases h; rfl

theorem encode_of_decode {w : PortWord} {i : Instr} (h : decode w = .ok i) : encode i = w := by
  cases w with
  | command w => simpa using encode_of_decodeCommandFields h
  | event w => simpa using encode_of_decodeEventFields h

/-- Settles O1: both directions, the second through the fields of the word. -/
theorem decodeEncodeRoundTrip : Obligations.DecodeEncodeRoundTrip :=
  ⟨decode_encode, fun _ _ => encode_of_decode⟩

/-! ## The opcode map by match and mask -/

/-- The word of every operation stands on its port, and exactly its row selects it. -/
theorem encodedWord_statement (i : Instr) : Laws.EncodedWord.Statement i := by
  cases i with
  | qinit q => exact Laws.EncodedWord.qinit q
  | qput q b0 => exact Laws.EncodedWord.qput q b0
  | qget q => exact Laws.EncodedWord.qget q
  | recvb => exact Laws.EncodedWord.recvb
  | sendb b0 => exact Laws.EncodedWord.sendb b0
  | tryrx => exact Laws.EncodedWord.tryrx
  | send b0 b1 b2 b3 => exact Laws.EncodedWord.send b0 b1 b2 b3
  | rxrdy d => exact Laws.EncodedWord.rxrdy d
  | txemp => exact Laws.EncodedWord.txemp
  | rxtx d => exact Laws.EncodedWord.rxtx d

/-- A mask of all ones keeps the opcode. -/
theorem op_and_15 (op : BitVec 4) : op &&& 15#4 = op := BitVec.and_allOnes

/-- A command word that a row of the opcode map selects decodes. -/
theorem decode_of_mainRow_selects {r : Row 40} {w : CommandWord} (hr : r ∈ mainRows)
    (h : r.selects w = true) : ∃ i, decode (.command w) = .ok i := by
  rw [← commandWord_commandFields w, selects_commandWord] at h
  simp only [decode, decodeCommandFields]
  generalize commandFields w = f at h ⊢
  simp only [mainRows, List.mem_cons, List.not_mem_nil, or_false] at hr
  rcases hr with rfl | rfl | rfl | rfl | rfl | rfl | rfl
  all_goals
    simp [commandFields, op_and_15] at h
    simp [requireZero, h]

/-- An event word that a row of the opcode map selects decodes. -/
theorem decode_of_lineRow_selects {r : Row 10} {w : EventWord} (hr : r ∈ lineRows)
    (h : r.selects w = true) : ∃ i, decode (.event w) = .ok i := by
  rw [← eventWord_eventFields w, selects_eventWord] at h
  simp only [decode, decodeEventFields]
  generalize eventFields w = f at h ⊢
  simp only [lineRows, List.mem_cons, List.not_mem_nil, or_false] at hr
  rcases hr with rfl | rfl | rfl
  all_goals
    simp [eventFields] at h
    simp [h]

/-- No row of the opcode map selects a word that does not decode. -/
theorem selected_of_decode_error {w : PortWord} {why : Reserved} (h : decode w = .error why) :
    w.selected = [] := by
  have hno : ∀ i, decode w ≠ .ok i := fun i hi => by rw [h] at hi; cases hi
  cases w with
  | command w =>
    simp only [PortWord.selected, List.map_eq_nil_iff, List.filter_eq_nil_iff]
    intro r hr hsel
    obtain ⟨i, hi⟩ := decode_of_mainRow_selects hr hsel
    exact hno i hi
  | event w =>
    simp only [PortWord.selected, List.map_eq_nil_iff, List.filter_eq_nil_iff]
    intro r hr hsel
    obtain ⟨i, hi⟩ := decode_of_lineRow_selects hr hsel
    exact hno i hi

/-- Settles O2: a word that decodes is the encoding of its operation, which exactly its row
selects. -/
theorem decoderAgreesWithMatchAndMaskTable : Obligations.DecoderAgreesWithMatchAndMaskTable := by
  refine fun w => ⟨fun i h => ?_, fun why h => selected_of_decode_error h⟩
  obtain rfl := encode_of_decode h
  obtain ⟨hport, hselected⟩ := encodedWord_statement i
  exact ⟨hselected, hport.symm⟩

/-! ## The reserved encodings -/

/-- A command word is rejected iff it is one of the reserved encodings (30_encoding R67). -/
theorem decodeCommandFields_rejects (f : CommandFields) :
    (∃ why, decodeCommandFields f = .error why) ↔
      (f.op.toNat = 0 ∨ 8 ≤ f.op.toNat ∨ f.rsv ≠ 0#3 ∨
       (f.q = 1#1 ∧ f.op.toNat ∈ [4, 5, 6, 7]) ∨
       (f.op.toNat ∈ [1, 3, 4, 6] ∧ f.b0 ≠ 0#8) ∨
       (f.op.toNat ∈ [1, 2, 3, 4, 5, 6] ∧ (f.b1 ≠ 0#8 ∨ f.b2 ≠ 0#8 ∨ f.b3 ≠ 0#8))) := by
  have hbit : f.q ≠ 0#1 ↔ f.q = 1#1 := by
    rcases bit_cases f.q with hq | hq <;> simp [hq]
  by_cases hrsv : f.rsv = 0#3
  · simp only [decodeCommandFields, hrsv, ne_eq, not_true_eq_false, if_false]
    split
    case h_8 =>
      have hop : f.op.toNat = 0 ∨ 8 ≤ f.op.toNat := by grind
      exact iff_of_true ⟨_, rfl⟩ (hop.imp_right .inl)
    all_goals
      rename_i hop
      rw [requireZero_rejects]
      simp [hop, hbit]
  · simp [decodeCommandFields, hrsv]

/-- An event word is rejected iff it is one of the reserved encodings (30_encoding R67). -/
theorem decodeEventFields_rejects (f : EventFields) :
    (∃ why, decodeEventFields f = .error why) ↔
      ((f.txe = 0#1 ∧ f.rxr = 0#1) ∨ (f.txe = 1#1 ∧ f.rxr = 0#1 ∧ f.d ≠ 0#8)) := by
  obtain ⟨txe, rxr, d⟩ := f
  rcases bit_cases txe with rfl | rfl <;> rcases bit_cases rxr with rfl | rfl
  all_goals simp [decodeEventFields]
  by_cases hd : d = 0#8 <;> simp [hd]

/-- Settles O3: the list of R67, on the fields of the word. -/
theorem reservedEncodingsAreExactlyTheListed : Obligations.ReservedEncodingsAreExactlyTheListed :=
  ⟨fun w => decodeCommandFields_rejects (commandFields w),
    fun w => decodeEventFields_rejects (eventFields w)⟩

/-- Settles O4: each sample word is decoded from its fields. -/
theorem sampleWordsDecode : Obligations.SampleWordsDecode :=
  ⟨rfl, rfl, rfl, rfl, rfl, rfl, rfl, rfl, rfl, rfl⟩

end Sys2Proof
end

section
/-!
What any operation does to a queue, said once: it puts bytes that fit, or it gets at most one,
and nothing else (40_byte_queue R83, R87). The movement of the indices (R86) and the slots an
operation leaves alone (20_memory R41) follow from that.
-/

namespace Sys2Proof.Machine

/-! ## SENDBs that answer, whatever the state -/

/-- What a PUT that answers leaves, as the bytes it had room for. -/
theorem Queue.put_pushed {q q' : Queue} {b : Byte} {r : Bool} (h : q.put b = .ok (r, q')) :
    r = decide (0 < q.free) ∧ (0 < q.free → q.wr < q.cap) ∧ q' = q.pushed ([b].take q.free) := by
  obtain ⟨rfl, hfull, rfl⟩ | ⟨rfl, hroom, hw, rfl⟩ := Queue.put_cases h
  · have hfree : q'.free = 0 := Nat.sub_eq_zero_of_le hfull
    simp [hfree, Queue.pushed_nil]
  · have hfree : 0 < q.free := Nat.sub_pos_of_lt hroom
    refine ⟨by simpa using hfree, fun _ => hw, ?_⟩
    rw [List.take_of_length_le hfree]
    rfl

theorem Queue.pushed_cap (bs : List Byte) (q : Queue) : (q.pushed bs).cap = q.cap := by
  induction bs generalizing q with
  | nil => rfl
  | cons b bs ih => exact ih _

theorem Queue.pushed_rd (bs : List Byte) (q : Queue) : (q.pushed bs).rd = q.rd := by
  induction bs generalizing q with
  | nil => rfl
  | cons b bs ih => exact ih _

theorem Queue.pushed_free (bs : List Byte) (q : Queue) :
    (q.pushed bs).free = q.free - bs.length := by
  rw [Queue.free, Queue.pushed_cap, Queue.pushed_cnt, Queue.free, Nat.sub_sub]

/-- What SENDBs that answer leave, as the bytes TXQ had room for. -/
theorem sendBytes_result (bs : List Byte) {s s1 : State} {r : Bool}
    (h : sendBytes bs s = .ok (r, s1)) :
    r = decide (bs.length ≤ s.txq.free) ∧
    (bs ≠ [] → 0 < s.txq.free → s.txq.wr < s.txq.cap) ∧
    s1 = { s with txq := s.txq.pushed (bs.take s.txq.free),
                  txarm := s.txarm || decide (bs ≠ [] ∧ 0 < s.txq.free) } := by
  induction bs generalizing s r with
  | nil => cases h; simp [Queue.pushed_nil]
  | cons b bs ih =>
    obtain ⟨r1, s2, rs, hfirst, hrest, rfl⟩ := sendBytes_cons_cases h
    obtain ⟨v, hput, rfl⟩ := sendByte_cases hfirst
    obtain ⟨rfl, hw, rfl⟩ := Queue.put_pushed hput
    obtain ⟨rfl, -, rfl⟩ := ih hrest
    obtain hfree | ⟨n, hfree⟩ : s.txq.free = 0 ∨ ∃ n, s.txq.free = n + 1 := by
      cases s.txq.free <;> simp
    · simp [hfree, Queue.pushed_nil]
    · have hpush : s.txq.pushed (b :: bs.take n) = (s.txq.pushed [b]).pushed (bs.take n) := rfl
      simp [hfree, hw, Queue.pushed_free, hpush]

/-- What a SEND that answers leaves. -/
theorem exec_send_result {b0 b1 b2 b3 : Byte} {s s1 : State}
    (h : exec (.send b0 b1 b2 b3) s = .next s1) :
    (0 < s.txq.free → s.txq.wr < s.txq.cap) ∧
    s1 = respond (decide (5 ≤ s.txq.free)) none
      { s with txq := s.txq.pushed ((wireFrame b0 b1 b2 b3).take s.txq.free),
               txarm := s.txarm || decide (0 < s.txq.free) } := by
  obtain ⟨r, t, hsend, rfl⟩ := exec_send_cases h
  obtain ⟨rfl, hw, rfl⟩ := sendBytes_result _ hsend
  exact ⟨hw (List.cons_ne_nil _ _), by simp [wireFrame]⟩

/-! ## How a queue moves -/

/-- How an operation leaves a queue, given the bytes it puts and the bytes it gets: bytes that
fit have been put, or one GET has been made. -/
inductive Queue.Moved (q : Queue) : List Byte → List Byte → Queue → Prop
  | put {bs : List Byte} (hfit : bs.length ≤ q.free) (hw : bs ≠ [] → q.wr < q.cap) :
      q.Moved bs [] (q.pushed bs)
  | get {r : Option Byte} {q' : Queue} (h : q.get = .ok (r, q')) : q.Moved [] r.toList q'

theorem Queue.Moved.unchanged (q : Queue) : q.Moved [] [] q :=
  .put (Nat.zero_le _) (absurd rfl)

/-- Of any bytes, those that fit can be put. -/
theorem Queue.Moved.put_take {q : Queue} (bs : List Byte) (hw : 0 < q.free → q.wr < q.cap) :
    q.Moved (bs.take q.free) [] (q.pushed (bs.take q.free)) := by
  refine .put (List.length_take_le _ _) fun hne => hw (Nat.pos_of_ne_zero fun hz => hne ?_)
  rw [hz, List.take_zero]

theorem Queue.Moved.of_put {q q' : Queue} {b : Byte} {r : Bool} (h : q.put b = .ok (r, q')) :
    q.Moved ([b].take q.free) [] q' := by
  obtain ⟨-, hw, rfl⟩ := Queue.put_pushed h
  exact .put_take _ hw

/-- The slot FCNT named holds the byte the framer has obtained, whatever it did with it. -/
theorem acceptByte_get (c : Fin 5) (f : Frame) (v : Byte) :
    (acceptByte c f v).2.1.get c = v := by
  obtain ⟨-, hacc⟩ | ⟨rfl, -, hacc⟩ | ⟨rfl, -, hacc⟩ := acceptByte_cases c f v
  · rw [hacc]; exact Frame.get_set_same _ _ _
  · rw [hacc]; rfl
  · rw [hacc]; rfl

theorem exec_tryrx_moved {q : QSel} {s s1 : State} (h : exec .tryrx s = .next s1) :
    (s.queue q).Moved (bytesPut q .tryrx s) (bytesGot q .tryrx s s1) (s1.queue q) := by
  obtain ⟨v, hv, rfl⟩ | ⟨b, v, hv, rfl⟩ := exec_tryrx_cases h
  · cases q with
    | tx => exact .unchanged _
    | rx =>
      have hempty : s.rxq.cnt = 0 := by
        obtain ⟨-, hempty, -⟩ | ⟨w, hsome, -⟩ := Queue.get_cases hv
        · exact hempty
        · cases hsome
      simpa [bytesPut, bytesGot, hempty] using Queue.Moved.get hv
  · cases q with
    | tx => exact .unchanged _
    | rx =>
      have hbyte : s.rxq.cnt ≠ 0 := by
        obtain ⟨hnone, -⟩ | ⟨w, -, hpos, -⟩ := Queue.get_cases hv
        · cases hnone
        · exact Nat.pos_iff_ne_zero.mp hpos
      simpa [bytesPut, bytesGot, hbyte, acceptByte_get] using Queue.Moved.get hv

/-- Every operation but QINIT of the queue moves a queue by the bytes it puts and gets. -/
theorem exec_moved {i : Instr} {q : QSel} {s s1 : State} (hq : i ≠ .qinit q)
    (h : exec i s = .next s1) :
    (s.queue q).Moved (bytesPut q i s) (bytesGot q i s s1) (s1.queue q) := by
  cases i with
  | qinit p =>
    cases h
    have hpq : q ≠ p := fun hpq => hq (hpq ▸ rfl)
    rw [respond_queue, State.queue_setQueue_other s hpq]
    exact .unchanged _
  | qput p b =>
    obtain ⟨r, v, hv, rfl⟩ := exec_qput_cases h
    rw [respond_queue]
    by_cases hpq : p = q
    · subst hpq
      simpa [bytesPut, bytesGot] using Queue.Moved.of_put hv
    · rw [State.queue_setQueue_other s (Ne.symm hpq)]
      simpa [bytesPut, bytesGot, hpq] using Queue.Moved.unchanged (s.queue q)
  | qget p =>
    obtain ⟨r, v, hv, rfl⟩ := exec_qget_cases h
    rw [respond_queue]
    by_cases hpq : p = q
    · subst hpq
      simpa [bytesPut, bytesGot] using Queue.Moved.get hv
    · rw [State.queue_setQueue_other s (Ne.symm hpq)]
      simpa [bytesPut, bytesGot, hpq] using Queue.Moved.unchanged (s.queue q)
  | recvb =>
    obtain ⟨r, v, hv, rfl⟩ := exec_recvb_cases h
    cases q with
    | rx => exact .get hv
    | tx => exact .unchanged _
  | sendb b =>
    obtain ⟨r, v, hv, rfl⟩ := exec_sendb_cases h
    cases q with
    | rx => exact .unchanged _
    | tx => exact .of_put hv
  | tryrx => exact exec_tryrx_moved h
  | send b0 b1 b2 b3 =>
    obtain ⟨hw, rfl⟩ := exec_send_result h
    cases q with
    | rx => exact .unchanged _
    | tx => exact .put_take _ hw
  | rxrdy d =>
    obtain ⟨r, v, hv, rfl⟩ := exec_rxrdy_cases h
    cases q with
    | rx => exact .of_put hv
    | tx => exact .unchanged _
  | txemp =>
    obtain ⟨-, rfl⟩ | ⟨-, out, v, hv, rfl⟩ := exec_txemp_cases h
    · cases q <;> exact .unchanged _
    · cases q with
      | rx => exact .unchanged _
      | tx => exact .get hv
  | rxtx d =>
    obtain ⟨r, v, hv, hline⟩ := exec_rxtx_cases h
    cases q with
    | rx => obtain ⟨-, rfl⟩ | ⟨-, out, w, -, rfl⟩ := hline <;> exact .of_put hv
    | tx =>
      obtain ⟨-, rfl⟩ | ⟨-, out, w, hw, rfl⟩ := hline
      · exact .unchanged _
      · exact .get hw

/-! ## The indices (40_byte_queue R86) -/

theorem Queue.pushed_wr (bs : List Byte) (q : Queue) :
    (q.pushed bs).wr = (nextIndex q.cap)^[bs.length] q.wr := by
  induction bs generalizing q with
  | nil => rfl
  | cons b bs ih => exact ih _

theorem iterate_nextIndex {n i : Nat} (h : i < n) (k : Nat) :
    (nextIndex n)^[k] i = (i + k) % n := by
  induction k with
  | zero => exact (Nat.mod_eq_of_lt h).symm
  | succ k ih =>
    rw [Function.iterate_succ_apply', ih, nextIndex, Nat.mod_add_mod, Nat.add_assoc]

/-- WR moves by one increment per byte put, RD by one per byte got, at most one. -/
theorem Queue.Moved.indices {q q' : Queue} {puts gots : List Byte} (h : q.Moved puts gots q') :
    q'.rd = (nextIndex q.cap)^[gots.length] q.rd ∧ gots.length ≤ 1 ∧
    q'.wr = (nextIndex q.cap)^[puts.length] q.wr := by
  cases h with
  | put => exact ⟨Queue.pushed_rd _ _, Nat.zero_le _, Queue.pushed_wr _ _⟩
  | get hget =>
    obtain ⟨rfl, -, rfl⟩ | ⟨v, rfl, -, -, -, rfl⟩ := Queue.get_cases hget
    · exact ⟨rfl, Nat.zero_le _, rfl⟩
    · exact ⟨rfl, Nat.le_refl _, rfl⟩

/-- Settles O19: the increment is an addition modulo N, and an operation moves the indices as
the bytes it puts and gets say. -/
theorem indicesStepByOneModuloN : Obligations.IndicesStepByOneModuloN := by
  refine ⟨fun n i hi => ⟨nextIndex_of_lt, ?_, nextIndex_lt hi, ?_⟩,
    fun i q s s1 _ hq h => (exec_moved hq h).indices⟩
  · rintro rfl
    exact Nat.mod_self _
  · rw [iterate_nextIndex hi, Nat.add_mod_right, Nat.mod_eq_of_lt hi]

/-! ## The slots that are not stored to (20_memory R41) -/

/-- The slots of several puts are as many as there are bytes that fit. -/
theorem putSlots_length (bs : List Byte) (q : Queue) :
    putSlots bs.length q =
      (List.range (bs.take q.free).length).map fun k => (q.wr + k) % q.cap := by
  rw [putSlots, List.length_take, Nat.min_comm]

/-- The slots of an operation are the write index and its successors, one per byte put. -/
theorem storedSlots_eq (i : Instr) (q : QSel) (s : State) :
    storedSlots i q s = (List.range (bytesPut q i s).length).map
      fun k => ((s.queue q).wr + k) % (s.queue q).cap := by
  cases i with
  | qput p b =>
    by_cases hpq : p = q
    · simpa [storedSlots, bytesPut, hpq] using putSlots_length [b] (s.queue q)
    · simp [storedSlots, bytesPut, hpq]
  | sendb b =>
    cases q with
    | rx => rfl
    | tx => exact putSlots_length [b] s.txq
  | send b0 b1 b2 b3 =>
    cases q with
    | rx => rfl
    | tx => exact putSlots_length (wireFrame b0 b1 b2 b3) s.txq
  | rxrdy d | rxtx d =>
    cases q with
    | rx => exact putSlots_length [d] s.rxq
    | tx => rfl
  | qinit | qget | recvb | tryrx | txemp => rfl

theorem Queue.Moved.read_other {q q' : Queue} {puts gots : List Byte} (h : q.Moved puts gots q')
    {a : Nat} (ha : ∀ k, k < puts.length → a ≠ (q.wr + k) % q.cap) :
    q'.buf.read a = q.buf.read a := by
  cases h with
  | put _ hw =>
    by_cases hne : puts = []
    · subst hne; rfl
    · exact Queue.pushed_frame _ _ (hw hne) ha
  | get hget => obtain ⟨-, -, rfl⟩ | ⟨v, -, -, -, -, rfl⟩ := Queue.get_cases hget <;> rfl

/-- Settles O46: a queue moves by the bytes put, whose slots are the ones stored to; QINIT
stores nothing. -/
theorem buffersChangeOnlyAtTheStoredSlots : Obligations.BuffersChangeOnlyAtTheStoredSlots := by
  intro i q s s1 a h ha
  by_cases hq : i = .qinit q
  · subst hq
    cases h
    rw [respond_queue, State.queue_setQueue_same, Queue.init_buf]
  · rw [storedSlots_eq, List.mem_map] at ha
    exact (exec_moved hq h).read_other fun k hk heq => ha ⟨k, List.mem_range.mpr hk, heq.symm⟩

end Sys2Proof.Machine
end

section
/-!
The step and the invariant: which operation a step runs and what it refuses (20_memory sections
5 and 7, 30_encoding section 4), the outputs every operation drives (30_encoding sections 1 and
2), and the invariant of the block with the capacities fixed for life.
-/

namespace Sys2Proof.Machine

/-! ## The step -/

theorem step_of_word {s : State} {w : PortWord} {ws : List PortWord} {i : Instr}
    (hs : s.InRange) (ht : s.trace = w :: ws) (hd : decode w = .ok i) :
    step s = exec i { s with trace := ws } := by
  simp [step, hs, State.presented, ht, hd]

theorem step_of_reserved {s : State} {w : PortWord} {ws : List PortWord} {why : Reserved}
    (hs : s.InRange) (ht : s.trace = w :: ws) (hd : decode w = .error why) :
    step s = .refused (refuseWord w why) := by
  simp [step, hs, State.presented, ht, hd]

/-- Settles O5: in range a step is the operation the word taken decodes to. -/
theorem stepRunsThePresentedOperation : Obligations.StepRunsThePresentedOperation :=
  fun _ _ _ _ => step_of_word

/-- A table word that gives an operation stands for a port word that decodes to it. -/
theorem decodeTableWord_cases {nbits w : Nat} {i : Instr} (h : decodeTableWord nbits w = some i) :
    ∃ p, tableWord nbits w = some p ∧ decode p = .ok i := by
  unfold decodeTableWord at h
  split at h
  · cases h
  · rename_i p htable
    split at h
    · rename_i j hd
      cases h
      exact ⟨p, htable, hd⟩
    · cases h

/-- Settles O6: the placed word stands ahead of those waiting, which the step leaves. -/
theorem placedTableWordRunsNext : Obligations.PlacedTableWordRunsNext := by
  intro s nbits w i hs h
  obtain ⟨p, htable, hd⟩ := decodeTableWord_cases h
  have hplaced : s.withFetchWord nbits w = s.present p := by simp [State.withFetchWord, htable]
  rw [hplaced]
  exact step_of_word (s := s.present p) hs rfl hd

/-- Settles O7: with an empty trace no word is taken. -/
theorem stepIdlesWithNoWordPresented : Obligations.StepIdlesWithNoWordPresented := by
  intro s hs ht
  simp [step, hs, State.presented, ht]

/-- Settles O8: a reserved word of either port is refused by the name of its port. -/
theorem stepRefusesReservedWords : Obligations.StepRefusesReservedWords :=
  fun _ _ _ hs => ⟨fun _ ht hd => step_of_reserved hs ht hd,
    fun _ ht hd => step_of_reserved hs ht hd⟩

/-- Settles O9: the ranges are the first test of a step. -/
theorem stepRefusesStatesOutsideTheRanges : Obligations.StepRefusesStatesOutsideTheRanges :=
  fun _ hs => if_neg hs

/-! ## Reset -/

/-- Settles O10: each register is read off the reset state, the queues' one by one. -/
theorem resetLeavesTheInitialState : Obligations.ResetLeavesTheInitialState := by
  refine fun nRx nTx => ⟨fun q => ?_, rfl, rfl, rfl, rfl, rfl⟩
  cases q <;> exact ⟨rfl, rfl, rfl⟩

theorem State.resetWith_inv {nRx nTx : Nat} (hRx : 1 ≤ nRx) (hTx : 1 ≤ nTx) :
    (State.resetWith nRx nTx).Inv :=
  ⟨Queue.reset_inv hRx, Queue.reset_inv hTx, rfl, rfl⟩

/-- Settles O11: both queues start empty; State.reset has the capacities of Config. -/
theorem resetMeetsTheInvariant : Obligations.ResetMeetsTheInvariant :=
  ⟨fun _ _ => State.resetWith_inv, State.resetWith_inv (by decide) (by decide)⟩

/-! ## The outputs of an operation -/

/-- What a state shows on its ports after an operation (30_encoding sections 1 and 2). -/
structure DrivenPorts (i : Instr) (s s1 : State) : Prop where
  excl : s1.excl = false
  main : i.port = .main → s1.lineOut = none ∧
    ∃ ok data, s1.response = some { ill := false, ok := ok, data := data } ∧
      (data.isSome = true ↔ ok = true ∧ (i = .recvb ∨ ∃ q, i = .qget q))
  line : i.port = .line → s1.response = none ∧
    (s1.lineOut.isSome = true ↔
      s.txarm = true ∧ s.txq.cnt ≠ 0 ∧ (i = .txemp ∨ ∃ d, i = .rxtx d))

/-- A main-port operation that delivers no byte. -/
theorem DrivenPorts.of_respond_none {i : Instr} {s t : State} (ok : Bool) (hp : i.port = .main)
    (hr : i ≠ .recvb) (hg : ∀ q, i ≠ .qget q) : DrivenPorts i s (respond ok none t) where
  excl := rfl
  main _ := ⟨rfl, ok, none, rfl, by simp [hr, hg]⟩
  line h := by rw [hp] at h; cases h

/-- QGET and RECVB, whose response carries the byte got. -/
theorem DrivenPorts.of_respond_got {i : Instr} {s t : State} (r : Option Byte)
    (hp : i.port = .main) (hi : i = .recvb ∨ ∃ q, i = .qget q) :
    DrivenPorts i s (respond r.isSome r t) where
  excl := rfl
  main _ := ⟨rfl, _, r, rfl, by simp [hi]⟩
  line h := by rw [hp] at h; cases h

/-- A line-port operation, given when its line byte comes. -/
theorem DrivenPorts.of_lineEnd {i : Instr} {s t : State} {out : Option Byte} (hp : i.port = .line)
    (hout : out.isSome = true ↔
      s.txarm = true ∧ s.txq.cnt ≠ 0 ∧ (i = .txemp ∨ ∃ d, i = .rxtx d)) :
    DrivenPorts i s (lineEnd out t) where
  excl := rfl
  main h := by rw [hp] at h; cases h
  line _ := ⟨rfl, hout⟩

/-- GET answers a byte iff the queue holds one. -/
theorem Queue.get_isSome {q q' : Queue} {r : Option Byte} (h : q.get = .ok (r, q')) :
    r.isSome = true ↔ q.cnt ≠ 0 := by
  obtain ⟨rfl, hempty, -⟩ | ⟨v, rfl, hbyte, -⟩ := Queue.get_cases h
  · simp [hempty]
  · simpa using Nat.pos_iff_ne_zero.mp hbyte

theorem exec_drivenPorts {i : Instr} {s s1 : State} (h : exec i s = .next s1) :
    DrivenPorts i s s1 := by
  cases i with
  | qinit q => cases h; exact .of_respond_none _ rfl nofun nofun
  | qput q b =>
    obtain ⟨r, v, -, rfl⟩ := exec_qput_cases h
    exact .of_respond_none _ rfl nofun nofun
  | qget q =>
    obtain ⟨r, v, -, rfl⟩ := exec_qget_cases h
    exact .of_respond_got _ rfl (.inr ⟨q, rfl⟩)
  | recvb =>
    obtain ⟨r, v, -, rfl⟩ := exec_recvb_cases h
    exact .of_respond_got _ rfl (.inl rfl)
  | sendb b =>
    obtain ⟨r, v, -, rfl⟩ := exec_sendb_cases h
    exact .of_respond_none _ rfl nofun nofun
  | tryrx =>
    obtain ⟨v, -, rfl⟩ | ⟨b, v, -, rfl⟩ := exec_tryrx_cases h
    · exact .of_respond_none _ rfl nofun nofun
    · exact .of_respond_none _ rfl nofun nofun
  | send b0 b1 b2 b3 =>
    obtain ⟨-, rfl⟩ := exec_send_result h
    exact .of_respond_none _ rfl nofun nofun
  | rxrdy d =>
    obtain ⟨r, v, -, rfl⟩ := exec_rxrdy_cases h
    exact .of_lineEnd rfl (by simp)
  | txemp =>
    obtain ⟨harm, rfl⟩ | ⟨harm, out, v, hv, rfl⟩ := exec_txemp_cases h
    · exact .of_lineEnd rfl (by simp [harm])
    · exact .of_lineEnd rfl (by simpa [harm] using Queue.get_isSome hv)
  | rxtx d =>
    obtain ⟨r, v, -, ⟨harm, rfl⟩ | ⟨harm, out, w, hw, rfl⟩⟩ := exec_rxtx_cases h
    · exact .of_lineEnd rfl (by simp [harm])
    · exact .of_lineEnd rfl (by simpa [harm] using Queue.get_isSome hw)

/-- Settles O53: every operation ends as one of its port, and only a GET yields a byte. -/
theorem outputsOfAnOperation : Obligations.OutputsOfAnOperation := by
  intro i s s1 h
  obtain ⟨hexcl, hmain, hline⟩ := exec_drivenPorts h
  exact ⟨hexcl, hmain, hline⟩

/-- The ports show a legal response, and never an output on both. -/
theorem DrivenPorts.legal {i : Instr} {s s1 : State} (h : DrivenPorts i s s1) :
    s1.portsLegal = true := by
  obtain ⟨-, hmain, hline⟩ := h
  cases hp : i.port with
  | main =>
    obtain ⟨hout, ok, data, hresp, hdata⟩ := hmain hp
    cases data with
    | none => simp [State.portsLegal, Response.legal, hresp, hout]
    | some v => simp [State.portsLegal, Response.legal, hresp, hout, (hdata.mp rfl).1]
  | line => simp [State.portsLegal, (hline hp).1]

/-! ## The invariant -/

theorem Queue.inv_kept : Queue.Kept Queue.Inv where
  init := Queue.init_inv
  put h hi := Queue.put_keeps_inv hi h
  get h hi := Queue.get_keeps_inv hi h

theorem State.Inv.queue {s : State} (hs : s.Inv) (q : QSel) : (s.queue q).Inv := by
  obtain ⟨hrx, htx, -, -⟩ := hs
  cases q <;> assumption

/-- Every operation keeps the invariant: of the queues by their primitives, of the ports by
what it drives. -/
theorem exec_keeps_inv {i : Instr} {s s1 : State} (hs : s.Inv) (h : exec i s = .next s1) :
    s1.Inv :=
  ⟨exec_keeps_queue Queue.inv_kept h .rx (hs.queue .rx),
    exec_keeps_queue Queue.inv_kept h .tx (hs.queue .tx),
    (exec_drivenPorts h).excl, (exec_drivenPorts h).legal⟩

/-- Settles O12: a step idles or runs an operation, and taking the word changes no register. -/
theorem everyStepKeepsTheInvariant : Obligations.EveryStepKeepsTheInvariant := by
  intro s s1 hs h
  obtain ⟨-, rfl⟩ | ⟨w, ws, i, -, -, hexec⟩ := step_cases h
  · exact hs
  · exact exec_keeps_inv (s := { s with trace := ws }) hs hexec

/-! ## The capacities -/

theorem Queue.cap_kept (n : Nat) : Queue.Kept fun q => q.cap = n where
  init := id
  put h hn := by obtain ⟨-, -, rfl⟩ | ⟨-, -, -, rfl⟩ := Queue.put_cases h <;> exact hn
  get h hn := by obtain ⟨-, -, rfl⟩ | ⟨v, -, -, -, -, rfl⟩ := Queue.get_cases h <;> exact hn

/-- Settles O56: the queue primitives keep a capacity. -/
theorem capacitiesAreFixedForLife : Obligations.CapacitiesAreFixedForLife := by
  intro s s1 h
  obtain ⟨-, rfl⟩ | ⟨w, ws, i, -, -, hexec⟩ := step_cases h
  · exact ⟨rfl, rfl⟩
  · exact ⟨exec_keeps_queue (Queue.cap_kept _) hexec .rx rfl,
      exec_keeps_queue (Queue.cap_kept _) hexec .tx rfl⟩

end Sys2Proof.Machine
end

section
/-!
Results of single operations: gets that fault (93_implementation_defined U2), the transmit event
while disarmed and RXTX (41_serial_link sections 5 and 6), the sliding TRYRX (42_packet_protocol
R126) and SEND (R131).
-/

namespace Sys2Proof.Machine

/-! ## Gets that fault -/

theorem Queue.get_of_unwritten {q : Queue} (hbyte : 0 < q.cnt) (hr : q.rd < q.cap)
    (hv : q.buf.read q.rd = none) : q.get = .error (.unwrittenSlot q.rd) := by
  simp [Queue.get, Queue.memRead, hbyte, hr, hv]

theorem Queue.get_of_outside {q : Queue} (hbyte : 0 < q.cnt) (hr : q.cap ≤ q.rd) :
    q.get = .error (.noSuchSlot q.rd) := by
  simp [Queue.get, Queue.memRead, hbyte, Nat.not_lt.mpr hr]

theorem getFrom_of_fault {q : QSel} {s : State} {f : Fault} (h : (s.queue q).get = .error f) :
    getFrom q s = .error f := by
  simp [getFrom, h]

theorem exec_qget_of_fault {q : QSel} {s : State} {f : Fault} (h : (s.queue q).get = .error f) :
    exec (.qget q) s = .fault f := by
  simp [exec, execQget, getFrom_of_fault h]

theorem exec_tryrx_of_fault {s : State} {f : Fault} (h : s.rxq.get = .error f) :
    exec .tryrx s = .fault f := by
  simp [exec, execTryrx, getFrom_of_fault (q := .rx) h]

theorem exec_txemp_of_fault {s : State} {f : Fault} (harm : s.txarm = true)
    (h : s.txq.get = .error f) : exec .txemp s = .fault f := by
  simp [exec, execTxemp, gatedTxService, txService, harm, getFrom_of_fault (q := .tx) h]

/-- Settles O15: each of the operations passes on the fault of the GET it makes. -/
theorem getOfAValuelessSlotFaults : Obligations.GetOfAValuelessSlotFaults := by
  refine fun q s hbyte => ⟨fun hr hv => ?_,
    fun hr => exec_qget_of_fault (Queue.get_of_outside hbyte hr)⟩
  have hget := Queue.get_of_unwritten hbyte hr hv
  refine ⟨exec_qget_of_fault hget, ?_, ?_⟩
  · rintro rfl
    exact ⟨exec_qget_of_fault (q := .rx) hget, exec_tryrx_of_fault hget⟩
  · rintro rfl harm
    exact exec_txemp_of_fault harm hget

/-! ## The serial link -/

/-- Settles O24: the two meanings are the same GET on RXQ. -/
theorem recvbIsQgetRx : Obligations.RecvbIsQgetRx :=
  exec_recvb_eq_qget_rx

theorem exec_txemp_of_disarmed {s : State} (harm : s.txarm = false) :
    exec .txemp s = .next (lineEnd none s) := by
  simp [exec, execTxemp, gatedTxService_of_disarmed harm]

/-- Settles O28: the gate is closed. -/
theorem txempWhileDisarmedDoesNothing : Obligations.TxempWhileDisarmedDoesNothing :=
  fun _ => exec_txemp_of_disarmed

theorem exec_rxtx_of_disarmed {d : Byte} {s : State} {r : Bool} {v : Queue}
    (hput : s.rxq.put d = .ok (r, v)) (harm : s.txarm = false) :
    exec (.rxtx d) s = .next (lineEnd none { s with rxq := v }) := by
  have hgate : gatedTxService { s with rxq := v } = _ := gatedTxService_of_disarmed harm
  simp [exec, execRxtx, rxService_of_put hput, hgate]

theorem exec_rxtx_of_armed {d : Byte} {s : State} {r : Bool} {v w : Queue} {out : Option Byte}
    (hput : s.rxq.put d = .ok (r, v)) (harm : s.txarm = true) (hget : s.txq.get = .ok (out, w)) :
    exec (.rxtx d) s =
      .next (lineEnd out { s with rxq := v, txq := w, txarm := out.isSome }) := by
  have hgate : gatedTxService { s with rxq := v } = _ := gatedTxService_of_armed harm hget
  simp [exec, execRxtx, rxService_of_put hput, hgate]

/-- What a PUT in range leaves, with and without room. -/
theorem Queue.put_result {q : Queue} (hw : q.wr < q.cap) (b : Byte) :
    ∃ r, q.put b = .ok (r,
      if q.cnt < q.cap then
        { q with buf := q.buf.write q.wr b, wr := (q.wr + 1) % q.cap, cnt := q.cnt + 1 }
      else q) := by
  by_cases hroom : q.cnt < q.cap
  · rw [if_pos hroom]
    exact ⟨true, Queue.put_of_room hw hroom b⟩
  · rw [if_neg hroom]
    exact ⟨false, Queue.put_of_full (Nat.not_lt.mp hroom) b⟩

/-- Settles O29: the PUT of the receive service, then the three cases of the gated GET. -/
theorem rxtxResult : Obligations.RxtxResult := by
  rintro d s ⟨⟨-, hw, -⟩, ⟨hr, -, -⟩⟩
  obtain ⟨r, hput⟩ := Queue.put_result hw d
  refine ⟨fun harm => exec_rxtx_of_disarmed hput harm, fun harm hempty => ?_,
    fun v harm hbyte hv => ?_⟩
  · rw [exec_rxtx_of_armed hput harm (Queue.get_of_empty hempty)]
    rfl
  · rw [exec_rxtx_of_armed hput harm (Queue.get_of_byte hr hbyte hv), Option.isSome_some, ← harm]
    rfl

/-- Settles O30: the PUT on RXQ and the gated GET on TXQ read and write apart. -/
theorem rxtxIsRxrdyAndTxempInEitherOrder : Obligations.RxtxIsRxrdyAndTxempInEitherOrder := by
  intro d s s1 _ h
  obtain ⟨r, v, hput, ⟨harm, rfl⟩ | ⟨harm, out, w, hget, rfl⟩⟩ := exec_rxtx_cases h
  · exact ⟨⟨_, exec_rxrdy_of_put hput, exec_txemp_of_disarmed harm⟩,
      ⟨_, _, exec_txemp_of_disarmed harm, exec_rxrdy_of_put hput, rfl, rfl⟩⟩
  · exact ⟨⟨_, exec_rxrdy_of_put hput, exec_txemp_of_armed harm hget⟩,
      ⟨_, _, exec_txemp_of_armed harm hget, exec_rxrdy_of_put hput, rfl, rfl⟩⟩

/-! ## The packet protocol -/

/-- Settles O37: the byte fails the validator, and the framer slides. -/
theorem tryrxMismatchSlidesByOneByte : Obligations.TryrxMismatchSlidesByOneByte := by
  rintro s v ⟨hr, -, -⟩ hbyte hv hfour hmismatch
  exact exec_tryrx_of_accept hr hbyte hv (hfour ▸ acceptByte_of_mismatch hmismatch)

/-- Settles O44: SEND is the SENDBs of its wire frame. -/
theorem sendQueuesWhatFits : Obligations.SendQueuesWhatFits :=
  fun _ _ _ _ _ => exec_send_of_inRange

end Sys2Proof.Machine
end

section
/-!
The transmit-ready interrupt (10_state section 5): what each operation does to TXARM, and that a
TXQ filled only through SENDB and SEND is armed while it holds a byte.
-/

namespace Sys2Proof.Machine

/-! ## TXARM over one operation -/

/-- TXARM after an operation: SENDB and SEND arm if they put a byte, a transmit service stays
armed if it finds one, and no other operation touches it. -/
def txarmAfter (i : Instr) (s : State) : Bool :=
  match i with
  | .sendb _ | .send _ _ _ _ => s.txarm || decide (bytesPut .tx i s ≠ [])
  | .txemp | .rxtx _ => s.txarm && decide (s.txq.cnt ≠ 0)
  | .qinit _ | .qput _ _ | .qget _ | .recvb | .tryrx | .rxrdy _ => s.txarm

theorem take_ne_nil_iff {bs : List Byte} (hbs : bs ≠ []) (n : Nat) : bs.take n ≠ [] ↔ 0 < n := by
  rw [ne_eq, List.take_eq_nil_iff, or_iff_left hbs, Nat.pos_iff_ne_zero]

theorem Queue.get_isSome_eq_decide {q q' : Queue} {r : Option Byte} (h : q.get = .ok (r, q')) :
    r.isSome = decide (q.cnt ≠ 0) :=
  Bool.eq_iff_iff.mpr ((Queue.get_isSome h).trans decide_eq_true_iff.symm)

theorem exec_txarm {i : Instr} {s s1 : State} (h : exec i s = .next s1) :
    s1.txarm = txarmAfter i s := by
  cases i with
  | qinit q => cases h; simp [txarmAfter]
  | qput q b =>
    obtain ⟨r, v, -, rfl⟩ := exec_qput_cases h
    simp [txarmAfter]
  | qget q =>
    obtain ⟨r, v, -, rfl⟩ := exec_qget_cases h
    simp [txarmAfter]
  | recvb => obtain ⟨r, v, -, rfl⟩ := exec_recvb_cases h; rfl
  | sendb b =>
    obtain ⟨r, v, hput, rfl⟩ := exec_sendb_cases h
    obtain ⟨rfl, -, -⟩ := Queue.put_pushed hput
    simp only [txarmAfter, bytesPut, if_true, take_ne_nil_iff (List.cons_ne_nil _ _),
      respond_txarm]
  | tryrx => obtain ⟨v, -, rfl⟩ | ⟨b, v, -, rfl⟩ := exec_tryrx_cases h <;> rfl
  | send b0 b1 b2 b3 =>
    obtain ⟨-, rfl⟩ := exec_send_result h
    simp only [txarmAfter, bytesPut, wireFrame, if_true, take_ne_nil_iff (List.cons_ne_nil _ _),
      respond_txarm]
  | rxrdy d => obtain ⟨r, v, -, rfl⟩ := exec_rxrdy_cases h; rfl
  | txemp =>
    obtain ⟨harm, rfl⟩ | ⟨harm, out, v, hget, rfl⟩ := exec_txemp_cases h
    · simp [txarmAfter, harm]
    · simp [txarmAfter, harm, Queue.get_isSome_eq_decide hget]
  | rxtx d =>
    obtain ⟨r, v, -, ⟨harm, rfl⟩ | ⟨harm, out, w, hget, rfl⟩⟩ := exec_rxtx_cases h
    · simp [txarmAfter, harm]
    · simp [txarmAfter, harm, Queue.get_isSome_eq_decide hget]

/-- Settles O32: read off TXARM after each operation. -/
theorem txarmChangesOnlyBySendAndEmptyService :
    Obligations.TxarmChangesOnlyBySendAndEmptyService := by
  intro i s s1 _ h hne
  rw [exec_txarm h] at hne ⊢
  cases i with
  | qinit | qput | qget | recvb | tryrx | rxrdy => exact absurd rfl hne
  | sendb | send => simp_all [txarmAfter]
  | txemp | rxtx => simp_all [txarmAfter]

/-- A byte put into TXQ by anything but QPUT arms. -/
theorem exec_arms {i : Instr} {s s1 : State} (h : exec i s = .next s1)
    (hi : ∀ b, i ≠ .qput .tx b) (hput : bytesPut .tx i s ≠ []) : s1.txarm = true := by
  rw [exec_txarm h]
  cases i with
  | qput q b =>
    cases q with
    | rx => exact absurd rfl hput
    | tx => exact absurd rfl (hi b)
  | sendb | send => simp [txarmAfter, hput]
  | qinit | qget | recvb | tryrx | rxrdy | txemp | rxtx => exact absurd rfl hput

/-- An operation keeps an armed TXQ armed unless it found the queue empty. -/
theorem exec_keeps_armed {i : Instr} {s s1 : State} (h : exec i s = .next s1)
    (hbyte : 0 < s.txq.cnt) (harm : s.txarm = true) : s1.txarm = true := by
  rw [exec_txarm h]
  cases i <;> simp [txarmAfter, harm, Nat.pos_iff_ne_zero.mp hbyte]

/-- An operation that leaves a byte in TXQ and puts none there found one. -/
theorem exec_txq_cnt_pos {i : Instr} {s s1 : State} (hs : s.txq.InRange)
    (h : exec i s = .next s1) (hput : bytesPut .tx i s = []) (hbyte : 0 < s1.txq.cnt) :
    0 < s.txq.cnt := by
  by_cases hi : i = .qinit .tx
  · subst hi; cases h; exact absurd hbyte (Nat.lt_irrefl 0)
  · have hcnt := exec_cnt (q := .tx) hs hi h
    simp only [hput, State.queue_tx, List.length_nil] at hcnt
    omega

/-- Settles O33: a byte in TXQ has been put by the operation, which armed, or was there, and
then TXARM was set and is kept. -/
theorem queuedBytesStayArmedWithoutQputTx : Obligations.QueuedBytesStayArmedWithoutQputTx := by
  refine ⟨fun _ _ hbyte => absurd hbyte (Nat.lt_irrefl 0), ?_⟩
  intro i s s1 hs hi h harmed hbyte
  by_cases hput : bytesPut .tx i s = []
  · have hfound := exec_txq_cnt_pos hs h hput hbyte
    exact exec_keeps_armed h hfound (harmed hfound)
  · exact exec_arms h hi hput

end Sys2Proof.Machine
end

section
/-!
What an operation leaves unchanged (40_byte_queue, 41_serial_link, 42_packet_protocol) and which
context writes what (60_exceptions section 5).
-/

namespace Sys2Proof.Machine

/-! ## What the queue primitives leave unchanged -/

theorem Queue.pushed_frame_registers (bs : List Byte) (q : Queue) :
    q.pushed bs = { q with
      buf := (q.pushed bs).buf, wr := (q.pushed bs).wr, cnt := (q.pushed bs).cnt } := by
  induction bs generalizing q with
  | nil => rfl
  | cons b bs ih => exact ih _

theorem Queue.put_frame {q q' : Queue} {b : Byte} {r : Bool} (h : q.put b = .ok (r, q')) :
    q' = { q with buf := q'.buf, wr := q'.wr, cnt := q'.cnt } := by
  obtain ⟨-, -, rfl⟩ | ⟨-, -, -, rfl⟩ := Queue.put_cases h <;> rfl

theorem Queue.get_frame {q q' : Queue} {r : Option Byte} (h : q.get = .ok (r, q')) :
    q' = { q with rd := q'.rd, cnt := q'.cnt } := by
  obtain ⟨-, -, rfl⟩ | ⟨v, -, -, -, -, rfl⟩ := Queue.get_cases h <;> rfl

/-! ## What the operations leave unchanged -/

/-- QGET changes, beside the ports, only RD and CNT of its queue. -/
theorem exec_qget_frame {q : QSel} {s s1 : State} (h : exec (.qget q) s = .next s1) :
    s1 = { s.setQueue q { s.queue q with rd := (s1.queue q).rd, cnt := (s1.queue q).cnt } with
           response := s1.response, lineOut := s1.lineOut, excl := s1.excl } := by
  obtain ⟨r, v, hv, rfl⟩ := exec_qget_cases h
  rw [respond_queue, State.queue_setQueue_same, ← Queue.get_frame hv]
  rfl

/-- Settles O47: QINIT writes indices and the count; RECVB is QGET rx. -/
theorem initAndGetFrame : Obligations.InitAndGetFrame := by
  refine fun q s s1 => ⟨fun h => ?_, ?_⟩
  · cases h
    rw [respond_queue, State.queue_setQueue_same]
    rfl
  · rintro (h | ⟨rfl, h⟩)
    · exact exec_qget_frame h
    · exact exec_qget_frame (q := .rx) h

/-- Settles O48: both are a PUT on their queue. -/
theorem putFrame : Obligations.PutFrame := by
  rintro q b s s1 (h | ⟨rfl, h⟩)
  · obtain ⟨r, v, hv, rfl⟩ := exec_qput_cases h
    rw [respond_queue, State.queue_setQueue_same, ← Queue.put_frame hv]
    rfl
  · obtain ⟨r, v, hv, rfl⟩ := exec_rxrdy_cases h
    rw [lineEnd_queue, State.queue_rx, State.queue_rx, ← Queue.put_frame hv]
    rfl

/-- Settles O49: SENDB is one PUT on TXQ, SEND as many as fit. -/
theorem sendFrame : Obligations.SendFrame := by
  rintro i s s1 (⟨b, rfl⟩ | ⟨b0, b1, b2, b3, rfl⟩) h
  · obtain ⟨r, v, hv, rfl⟩ := exec_sendb_cases h
    rw [respond_txq, ← Queue.put_frame hv]
    rfl
  · obtain ⟨-, rfl⟩ := exec_send_result h
    rw [respond_txq, ← Queue.pushed_frame_registers]
    rfl

/-- Settles O50: TRYRX is a GET on RXQ, and the framer. -/
theorem tryrxFrame : Obligations.TryrxFrame := by
  intro s s1 h
  obtain ⟨v, hv, rfl⟩ | ⟨b, v, hv, rfl⟩ := exec_tryrx_cases h
  · rw [respond_rxq, ← Queue.get_frame hv]
    rfl
  · rw [respond_rxq, ← Queue.get_frame hv]
    rfl

/-- Settles O51: the transmit service is a GET on TXQ, the receive service a PUT on RXQ. -/
theorem transmitEventFrame : Obligations.TransmitEventFrame := by
  refine fun s s1 => ⟨fun h => ?_, fun d h => ?_⟩
  · obtain ⟨-, rfl⟩ | ⟨-, out, v, hv, rfl⟩ := exec_txemp_cases h
    · rfl
    · rw [lineEnd_txq, ← Queue.get_frame hv]
      rfl
  · obtain ⟨r, v, hput, ⟨-, rfl⟩ | ⟨-, out, w, hget, rfl⟩⟩ := exec_rxtx_cases h
    · rw [lineEnd_rxq, ← Queue.put_frame hput]
      rfl
    · rw [lineEnd_rxq, lineEnd_txq, ← Queue.put_frame hput, ← Queue.get_frame hget]
      rfl

/-! ## The two contexts -/

/-- A line-port operation reads RXQ from its write end and TXQ from its read end only. -/
theorem line_keeps_main_registers {i : Instr} {s s1 : State} (hp : i.port = .line)
    (h : exec i s = .next s1) :
    s1.rxq.rd = s.rxq.rd ∧ s1.txq.wr = s.txq.wr ∧ s1.txq.buf = s.txq.buf := by
  cases i with
  | qinit | qput | qget | recvb | sendb | tryrx | send => cases hp
  | rxrdy d =>
    rw [putFrame .rx d s s1 (.inr ⟨rfl, h⟩)]
    exact ⟨rfl, rfl, rfl⟩
  | txemp =>
    rw [(transmitEventFrame s s1).1 h]
    exact ⟨rfl, rfl, rfl⟩
  | rxtx d =>
    rw [(transmitEventFrame s s1).2 d h]
    exact ⟨rfl, rfl, rfl⟩

/-- Settles O52: the queues by the frames, the framer because only TRYRX moves it, TXARM by what
each operation does to it. -/
theorem contextsWriteOnlyTheirOwnState : Obligations.ContextsWriteOnlyTheirOwnState := by
  refine fun i s s1 h => ⟨fun hp => ?_, fun hp harm => ?_⟩
  · obtain ⟨hrd, hwr, hbuf⟩ := line_keeps_main_registers hp h
    have hi : i ≠ .tryrx := by rintro rfl; cases hp
    obtain ⟨hfcnt, hframe⟩ := exec_keeps_framer hi h
    refine ⟨hrd, hwr, hbuf, hfcnt, hframe, fun harm => ?_⟩
    rw [exec_txarm h] at harm
    cases i with
    | qinit | qput | qget | recvb | sendb | tryrx | send => cases hp
    | rxrdy => exact harm
    | txemp | rxtx => exact (Bool.and_eq_true_iff.mp harm).1
  · rw [exec_txarm h]
    cases i with
    | rxrdy | txemp | rxtx => cases hp
    | sendb | send => simp [txarmAfter, harm]
    | qinit | qput | qget | recvb | tryrx => exact harm

end Sys2Proof.Machine
end

section
/-!
Values: the checksum of a frame (42_packet_protocol section 1), the status outputs and the
register widths (10_state sections 2 and 7), the response word (30_encoding section 2).
-/

namespace Sys2Proof.Machine

/-! ## The checksum -/

/-- The XOR of the five bytes of a frame. -/
def Frame.parity (f : Frame) : Byte :=
  f.command ^^^ f.parameter1 ^^^ f.parameter2 ^^^ f.parameter3 ^^^ f.checksum

theorem Frame.valid_iff_parity (f : Frame) : f.valid = true ↔ f.parity = 0#8 := by
  rw [Frame.valid, beq_iff_eq, eq_comm, Frame.parity, chk, BitVec.xor_eq_zero_iff]

/-- Changing one byte changes the parity by the difference of the two bytes. -/
theorem Frame.parity_set (f : Frame) (i : Fin 5) (v : Byte) :
    (f.set i v).parity = f.parity ^^^ (f.get i ^^^ v) := by
  have hpull : f.parity ^^^ (f.get i ^^^ v) = f.get i ^^^ f.get i ^^^ (f.set i v).parity := by
    match i with
    | 0 | 1 | 2 | 3 | 4 => simp only [Frame.parity, Frame.set, Frame.get]; ac_rfl
  rw [hpull, BitVec.xor_self, BitVec.zero_xor]

/-- Settles O42: a change of one byte shows in the parity, equal changes of two bytes cancel. -/
theorem checksumLaws : Obligations.ChecksumLaws := by
  refine ⟨Frame.valid_iff_parity, fun f i v hvalid hne => ?_, fun f i j x hij => ?_⟩
  · rw [Bool.eq_false_iff, ne_eq, Frame.valid_iff_parity, Frame.parity_set,
      (Frame.valid_iff_parity f).mp hvalid, BitVec.zero_xor, BitVec.xor_eq_zero_iff]
    exact hne.symm
  · rw [Bool.eq_iff_iff, Frame.valid_iff_parity, Frame.valid_iff_parity, Frame.parity_set,
      Frame.parity_set, Frame.get_set_other f hij.symm]
    simp

/-! ## Widths -/

/-- From 2 on `ceil(log2(n))` is the least width w with n at most 2^w. -/
theorem ceilLog2_spec {n : Nat} (h : 2 ≤ n) :
    1 ≤ ceilLog2 n ∧ n ≤ 2 ^ ceilLog2 n ∧ 2 ^ (ceilLog2 n - 1) < n := by
  have hdef : ceilLog2 n = (n - 1).log2 + 1 := if_neg (by omega)
  have hupper := Nat.lt_log2_self (n := n - 1)
  have hlower := Nat.log2_self_le (n := n - 1) (by omega)
  rw [hdef, Nat.add_sub_cancel]
  omega

theorem countWidth_spec {n : Nat} (h : 1 ≤ n) :
    n < 2 ^ countWidth n ∧ 2 ^ (countWidth n - 1) ≤ n := by
  obtain ⟨-, hupper, hlower⟩ := ceilLog2_spec (n := n + 1) (by omega)
  exact ⟨hupper, Nat.lt_succ_iff.mp hlower⟩

theorem indexWidth_spec {n : Nat} (h : 2 ≤ n) :
    n ≤ 2 ^ indexWidth n ∧ 2 ^ (indexWidth n - 1) < n := by
  obtain ⟨hpos, hupper, hlower⟩ := ceilLog2_spec h
  rw [indexWidth, Nat.max_eq_right hpos]
  exact ⟨hupper, hlower⟩

theorem le_two_pow_indexWidth (n : Nat) : n ≤ 2 ^ indexWidth n := by
  by_cases h : 2 ≤ n
  · exact (indexWidth_spec h).1
  · have : n ≤ 1 := by omega
    exact this.trans Nat.one_le_two_pow

/-! ## Status outputs -/

/-- What the widths lose of the registers of a queue in range: nothing. -/
theorem Queue.InRange.fits {q : Queue} (h : q.InRange) :
    (BitVec.ofNat (countWidth q.cap) q.cnt).toNat = q.cnt ∧
    q.rd < 2 ^ indexWidth q.cap ∧ q.wr < 2 ^ indexWidth q.cap := by
  obtain ⟨hr, hw, hc⟩ := h
  have hindex := le_two_pow_indexWidth q.cap
  have hcount := (countWidth_spec (n := q.cap) (by omega)).1
  refine ⟨?_, by omega, by omega⟩
  rw [BitVec.toNat_ofNat, Nat.mod_eq_of_lt (by omega)]

theorem State.pktAckreq_append_pktCode (s : State) :
    BitVec.ofBool s.pktAckreq ++ s.pktCode = s.pktCommand := by
  apply BitVec.eq_of_getLsbD_eq
  intro i hi
  simp only [State.pktAckreq, State.pktCode, State.pktCommand, BitVec.getLsbD_append,
    BitVec.getLsbD_extractLsb', BitVec.getLsbD_ofBool]
  by_cases h7 : i < 7
  · simp [h7]
  · obtain rfl : i = 7 := by omega
    simp

/-- Settles O54: each queue's registers fit its widths, which are the least that hold them. -/
theorem statusOutputsShowTheRegisters : Obligations.StatusOutputsShowTheRegisters := by
  refine ⟨?_, fun _ => countWidth_spec, fun _ => indexWidth_spec, rfl⟩
  rintro s ⟨hrx, htx⟩
  obtain ⟨hrxc, hrxr, hrxw⟩ := hrx.fits
  obtain ⟨htxc, htxr, htxw⟩ := htx.fits
  have hfcnt : s.frmCount.toNat = s.fcnt.val := by
    rw [State.frmCount, BitVec.toNat_ofNat, Nat.mod_eq_of_lt (by omega)]
  exact ⟨hrxc, htxc, hfcnt, hrxr, hrxw, htxr, htxw, s.pktAckreq_append_pktCode⟩

/-! ## The response word -/

theorem Response.word_getLsbD (r : Response) (free : Byte) (i : Nat) :
    (r.word free).getLsbD i =
      if i < 8 then (r.data.getD free).getLsbD i
      else if i < 9 then (BitVec.ofBool r.ok).getLsbD (i - 8)
      else (BitVec.ofBool r.ill).getLsbD (i - 9) := by
  change BitVec.getLsbD (w := 1 + 1 + 8)
    (BitVec.ofBool r.ill ++ BitVec.ofBool r.ok ++ r.data.getD free) i = _
  simp only [BitVec.getLsbD_append]
  grind

theorem Response.word_low (r : Response) (free : Byte) :
    (r.word free).extractLsb' 0 8 = r.data.getD free := by
  apply BitVec.eq_of_getLsbD_eq
  intro i hi
  simp only [BitVec.getLsbD_extractLsb', Response.word_getLsbD, hi]
  simp [hi]

/-- Settles O55: the two flags stand above the eight data bits. -/
theorem responseWordLayout : Obligations.ResponseWordLayout := by
  intro r free
  refine ⟨?_, ?_, fun v hv => ?_, fun hnone => ?_⟩
  · rw [Response.word_getLsbD]; simp
  · rw [Response.word_getLsbD]; simp
  · rw [Response.word_low, hv, Option.getD_some]
  · rw [Response.word_low, hnone, Option.getD_none]

end Sys2Proof.Machine
end

section
/-!
The block as one whose queues are plain lists (40_byte_queue section 6): each queue primitive
acts on the contents as on a list, each operation therefore does what the abstract operation
does, and it completes (60_exceptions R150).
-/

namespace Sys2Proof.Machine

/-! ## The queue primitives on lists -/

theorem Queue.abs_items_length {q : Queue} (hi : q.Inv) : q.abs.items.length = q.cnt := by
  obtain ⟨-, -, hwritten, -⟩ := hi
  exact Queue.contents_length hwritten

theorem Queue.free_eq_abs {q : Queue} (hi : q.Inv) :
    q.free = q.abs.cap - q.abs.items.length := by
  rw [Queue.abs_items_length hi]
  rfl

/-- Putting what fits appends it to the list. -/
theorem Queue.pushed_abs {q : Queue} (hi : q.Inv) (bs : List Byte) :
    (q.pushed (bs.take q.free)).abs = { q.abs with items := q.abs.append bs } := by
  obtain ⟨-, hcap, -, -, hcontents⟩ := Queue.pushed_spec _ hi (List.length_take_le q.free bs)
  rw [Queue.abs, hcap, hcontents, Fifo.append, ← Queue.free_eq_abs hi]
  rfl

theorem Queue.put_refines {q : Queue} (hi : q.Inv) (b : Byte) :
    ∃ v, q.put b = .ok (decide (q.abs.items.length < q.abs.cap), v) ∧
      v.abs = { q.abs with items := q.abs.append [b] } := by
  obtain ⟨r, v, hput⟩ := Queue.put_answers hi.1 b
  obtain ⟨rfl, -, rfl⟩ := Queue.put_pushed hput
  have hroom : 0 < q.free ↔ q.abs.items.length < q.abs.cap := by
    rw [Queue.free_eq_abs hi, Nat.sub_pos_iff_lt]
  exact ⟨_, by rw [hput, decide_eq_decide.mpr hroom], Queue.pushed_abs hi [b]⟩

/-- A GET takes the head of the list, if there is one. -/
theorem Queue.get_refines {q : Queue} (hi : q.Inv) :
    (q.abs.items = [] ∧ q.get = .ok (none, q)) ∨
    (∃ b bs v, q.abs.items = b :: bs ∧ q.get = .ok (some b, v) ∧
      v.abs = { q.abs with items := bs }) := by
  obtain ⟨r, v, hget⟩ := Queue.get_answers hi
  obtain ⟨rfl, hempty, rfl⟩ | ⟨b, rfl, -, -, -, hv⟩ := Queue.get_cases hget
  · exact .inl ⟨Queue.contents_empty hempty, hget⟩
  · have hcap : v.cap = q.cap := by rw [hv]
    refine .inr ⟨b, v.contents, v, Queue.contents_get hi hget, hget, ?_⟩
    rw [Queue.abs, hcap]
    rfl

/-! ## The ports and the queues of a state -/

theorem State.abs_queue (s : State) (q : QSel) : s.abs.queue q = (s.queue q).abs := by
  cases q <;> rfl

theorem State.abs_setQueue {s : State} {q : QSel} {v : Queue} {items : List Byte}
    (h : v.abs = { (s.queue q).abs with items := items }) :
    (s.setQueue q v).abs = s.abs.setItems q items := by
  cases q <;> simp [State.abs, AbsState.setItems, h]

theorem State.abs_respond (ok : Bool) (data : Option Byte) (s : State) :
    (respond ok data s).abs = s.abs.answer ok data := rfl

theorem State.abs_lineEnd (out : Option Byte) (s : State) :
    (lineEnd out s).abs = { s.abs with response := none, lineOut := out } := rfl

/-! ## The operations -/

theorem exec_qinit_refines (q : QSel) (s : State) :
    ∃ s1, exec (.qinit q) s = .next s1 ∧ s1.abs = absExec (.qinit q) s.abs := by
  have hinit : (s.queue q).init.abs = { (s.queue q).abs with items := [] } := by
    rw [Queue.abs, Queue.contents_empty (Queue.init_cnt _)]
    rfl
  refine ⟨_, exec_qinit q s, ?_⟩
  rw [State.abs_respond, State.abs_setQueue hinit]
  rfl

theorem exec_qput_refines (q : QSel) (b : Byte) {s : State} (hi : (s.queue q).Inv) :
    ∃ s1, exec (.qput q b) s = .next s1 ∧ s1.abs = absExec (.qput q b) s.abs := by
  obtain ⟨v, hput, habs⟩ := Queue.put_refines hi b
  refine ⟨_, exec_qput_of_put hput, ?_⟩
  rw [State.abs_respond, State.abs_setQueue habs, ← State.abs_queue]
  rfl

theorem exec_qget_refines (q : QSel) {s : State} (hi : (s.queue q).Inv) :
    ∃ s1, exec (.qget q) s = .next s1 ∧ s1.abs = absExec (.qget q) s.abs := by
  obtain ⟨hitems, hget⟩ | ⟨b, bs, v, hitems, hget, habs⟩ := Queue.get_refines hi
  · refine ⟨_, exec_qget_of_get hget, ?_⟩
    rw [State.setQueue_queue, State.abs_respond]
    simp [absExec, State.abs_queue, hitems]
  · refine ⟨_, exec_qget_of_get hget, ?_⟩
    rw [State.abs_respond, State.abs_setQueue habs]
    simp [absExec, State.abs_queue, hitems]

theorem exec_tryrx_refines {s : State} (hi : s.rxq.Inv) :
    ∃ s1, exec .tryrx s = .next s1 ∧ s1.abs = absExec .tryrx s.abs := by
  obtain ⟨hitems, hget⟩ | ⟨b, bs, v, hitems, hget, habs⟩ := Queue.get_refines hi
  · have hempty : s.rxq.cnt = 0 := by rw [← Queue.abs_items_length hi, hitems]; rfl
    refine ⟨_, exec_tryrx_of_empty hempty, ?_⟩
    rw [State.abs_respond]
    simp [absExec, State.abs, hitems]
  · refine ⟨_, exec_tryrx_of_byte hget, ?_⟩
    rw [State.abs_respond]
    simp [absExec, State.abs, hitems, AbsState.setItems, habs]

/-- SENDBs of some bytes do what the abstract block does when it sends them. -/
theorem sendBytes_refines {bs : List Byte} (hbs : bs ≠ []) {s : State} (hi : s.txq.Inv) :
    ∃ r t, sendBytes bs s = .ok (r, t) ∧ (respond r none t).abs = s.abs.sendAll bs := by
  refine ⟨_, _, sendBytes_spec bs hi.1, ?_⟩
  have hok : bs.length ≤ s.txq.free ↔ bs.length ≤ s.abs.tx.cap - s.abs.tx.items.length := by
    rw [Queue.free_eq_abs hi]; rfl
  have harm : 0 < bs.length ∧ 0 < s.txq.free ↔ 0 < s.abs.tx.cap - s.abs.tx.items.length := by
    rw [Queue.free_eq_abs hi]; exact and_iff_right (List.length_pos_iff.mpr hbs)
  simp only [State.abs_respond, AbsState.sendAll, hok, harm]
  simp [State.abs, AbsState.setItems, Queue.pushed_abs hi]

/-- SENDB is the SENDBs of its one byte. -/
theorem exec_sendb_of_sendBytes {b : Byte} {s t : State} {r : Bool}
    (h : sendBytes [b] s = .ok (r, t)) : exec (.sendb b) s = .next (respond r none t) := by
  obtain ⟨r1, s1, rs, hfirst, hrest, rfl⟩ := sendBytes_cons_cases h
  cases hrest
  simp [exec, execSendb, hfirst]

theorem exec_rxrdy_refines (d : Byte) {s : State} (hi : s.rxq.Inv) :
    ∃ s1, exec (.rxrdy d) s = .next s1 ∧ s1.abs = absExec (.rxrdy d) s.abs := by
  obtain ⟨v, hput, habs⟩ := Queue.put_refines hi d
  refine ⟨_, exec_rxrdy_of_put hput, ?_⟩
  rw [State.abs_lineEnd]
  simp [absExec, State.abs, AbsState.setItems, habs]

/-- The gated transmit service does what the transmit half of the abstract block does. -/
theorem gatedTxService_refines {s : State} (hi : s.txq.Inv) :
    ∃ out t, gatedTxService s = .ok (out, t) ∧ (lineEnd out t).abs = s.abs.transmit := by
  cases harm : s.txarm with
  | false =>
    refine ⟨_, _, gatedTxService_of_disarmed harm, ?_⟩
    simp [State.abs, AbsState.transmit, harm]
  | true =>
    obtain ⟨hitems, hget⟩ | ⟨b, bs, v, hitems, hget, habs⟩ := Queue.get_refines hi
    · refine ⟨_, _, gatedTxService_of_armed harm hget, ?_⟩
      simp [State.abs, AbsState.transmit, harm, hitems]
    · refine ⟨_, _, gatedTxService_of_armed harm hget, ?_⟩
      simp [State.abs, AbsState.transmit, AbsState.setItems, harm, hitems, habs]

theorem exec_txemp_refines {s : State} (hi : s.txq.Inv) :
    ∃ s1, exec .txemp s = .next s1 ∧ s1.abs = absExec .txemp s.abs := by
  obtain ⟨out, t, hgate, habs⟩ := gatedTxService_refines hi
  exact ⟨_, by simp [exec, execTxemp, hgate], habs⟩

theorem exec_rxtx_refines (d : Byte) {s : State} (hrx : s.rxq.Inv) (htx : s.txq.Inv) :
    ∃ s1, exec (.rxtx d) s = .next s1 ∧ s1.abs = absExec (.rxtx d) s.abs := by
  obtain ⟨v, hput, hv⟩ := Queue.put_refines hrx d
  obtain ⟨out, t, hgate, habs⟩ := gatedTxService_refines (s := { s with rxq := v }) htx
  refine ⟨_, by simp [exec, execRxtx, rxService_of_put hput, hgate], habs.trans ?_⟩
  exact congrArg AbsState.transmit (State.abs_setQueue (q := .rx) hv)

/-- Every operation completes and does what the abstract operation does. -/
theorem exec_refines (i : Instr) {s : State} (hs : s.Inv) :
    ∃ s1, exec i s = .next s1 ∧ s1.abs = absExec i s.abs := by
  have hrx := hs.queue .rx
  have htx := hs.queue .tx
  cases i with
  | qinit q => exact exec_qinit_refines q s
  | qput q b => exact exec_qput_refines q b (hs.queue q)
  | qget q => exact exec_qget_refines q (hs.queue q)
  | recvb => exact exec_qget_refines .rx hrx
  | sendb b =>
    obtain ⟨r, t, hsend, habs⟩ := sendBytes_refines (List.cons_ne_nil b []) htx
    exact ⟨_, exec_sendb_of_sendBytes hsend, habs⟩
  | tryrx => exact exec_tryrx_refines hrx
  | send b0 b1 b2 b3 =>
    obtain ⟨r, t, hsend, habs⟩ := sendBytes_refines (bs := wireFrame b0 b1 b2 b3) nofun htx
    exact ⟨_, exec_send_of_sendBytes hsend, habs⟩
  | rxrdy d => exact exec_rxrdy_refines d hrx
  | txemp => exact exec_txemp_refines htx
  | rxtx d => exact exec_rxtx_refines d hrx htx

/-- Settles O22: the refinement, and the invariant as every operation keeps it. -/
theorem blockRefinesListQueues : Obligations.BlockRefinesListQueues := by
  intro i s hs
  obtain ⟨s1, h, habs⟩ := exec_refines i hs
  exact ⟨s1, h, exec_keeps_inv hs h, habs⟩

/-- Settles O14: the refinement is total. -/
theorem everyOperationCompletes : Obligations.EveryOperationCompletes := by
  intro i s hs
  obtain ⟨s1, h, -⟩ := exec_refines i hs
  exact ⟨s1, h⟩

end Sys2Proof.Machine
end

section
/-!
First in, first out (40_byte_queue R91): over one operation, then over a run; and the drain of
an armed TXQ by transmit events (41_serial_link section 5).
-/

namespace Sys2Proof.Machine

/-! ## The contents over one operation and over a run -/

/-- What was in a queue and what is put into it is, in order, what is got and what is left. -/
theorem Queue.Moved.contents {q q' : Queue} {puts gots : List Byte} (hi : q.Inv)
    (h : q.Moved puts gots q') : q.contents ++ puts = gots ++ q'.contents := by
  cases h with
  | put hfit _ =>
    obtain ⟨-, -, -, -, hcontents⟩ := Queue.pushed_spec _ hi hfit
    exact hcontents.symm
  | get hget =>
    rw [List.append_nil]
    obtain ⟨rfl, -, rfl⟩ | ⟨v, rfl, -⟩ := Queue.get_cases hget
    · rfl
    · exact Queue.contents_get hi hget

theorem runFlow_cons_of_exec {q : QSel} {i : Instr} {is : List Instr} {s s1 s2 : State}
    {ps gs : List Byte} (h : exec i s = .next s1) (hrun : runFlow q is s1 = some (ps, gs, s2)) :
    runFlow q (i :: is) s = some (bytesPut q i s ++ ps, bytesGot q i s s1 ++ gs, s2) := by
  simp [runFlow, h, hrun]

/-- Settles O21: by induction on the run, each operation moving the contents as a list. -/
theorem queueIsFirstInFirstOutOverAnyRun : Obligations.QueueIsFirstInFirstOutOverAnyRun := by
  intro q ops
  induction ops with
  | nil => exact fun s _ _ => ⟨[], [], s, rfl, by simp⟩
  | cons i is ih =>
    intro s hs hq
    obtain ⟨hhead, htail⟩ := List.forall_mem_cons.mp hq
    obtain ⟨s1, h, -⟩ := exec_refines i hs
    obtain ⟨ps, gs, s2, hrun, hflow⟩ := ih s1 (exec_keeps_inv hs h) htail
    refine ⟨_, _, s2, runFlow_cons_of_exec h hrun, ?_⟩
    rw [← List.append_assoc, (exec_moved hhead h).contents (hs.queue q), List.append_assoc, hflow,
      List.append_assoc]

/-! ## The drain -/

/-- A GET on a queue whose contents are known. -/
theorem Queue.get_of_contents {q : Queue} {v : Byte} {vs : List Byte} (hi : q.Inv)
    (hc : q.contents = v :: vs) : ∃ w, q.get = .ok (some v, w) ∧ w.contents = vs := by
  obtain ⟨hnil, -⟩ | ⟨b, bs, w, hcons, hget, -⟩ := Queue.get_refines hi
  · cases hc.symm.trans hnil
  · cases hc.symm.trans hcons
    exact ⟨w, hget, (List.cons.inj (hc.symm.trans (Queue.contents_get hi hget))).2.symm⟩

theorem Queue.cnt_of_contents_nil {q : Queue} (hi : q.Inv) (hc : q.contents = []) :
    q.cnt = 0 := by
  obtain ⟨-, -, hwritten, -⟩ := hi
  rw [← Queue.contents_length hwritten, hc, List.length_nil]

/-- An armed transmit event on a queue whose contents are known sends the oldest byte and stays
armed. -/
theorem exec_txemp_of_contents {s : State} {v : Byte} {vs : List Byte} (hs : s.Inv)
    (harm : s.txarm = true) (hc : s.txq.contents = v :: vs) :
    ∃ w, w.contents = vs ∧
      exec .txemp s = .next (lineEnd (some v) { s with txq := w, txarm := true }) := by
  obtain ⟨w, hget, hw⟩ := Queue.get_of_contents (hs.queue .tx) hc
  exact ⟨w, hw, exec_txemp_of_armed harm hget⟩

/-- The events that send the queued bytes, and the one that finds the queue empty. -/
theorem runFlow_txemp_drains (bs : List Byte) {s : State} (hs : s.Inv) (harm : s.txarm = true)
    (hc : s.txq.contents = bs) :
    ∃ s1, runFlow .tx (List.replicate (bs.length + 1) .txemp) s = some ([], bs, s1) ∧
      s1.txarm = false ∧ s1.txq.cnt = 0 := by
  induction bs generalizing s with
  | nil =>
    have hempty := Queue.cnt_of_contents_nil (hs.queue .tx) hc
    exact ⟨_, runFlow_cons_of_exec (exec_txemp_of_armed harm (Queue.get_of_empty hempty)) rfl,
      rfl, hempty⟩
  | cons v vs ih =>
    obtain ⟨w, hw, hexec⟩ := exec_txemp_of_contents hs harm hc
    obtain ⟨s1, hrun, hend⟩ := ih (exec_keeps_inv hs hexec) rfl hw
    exact ⟨s1, runFlow_cons_of_exec hexec hrun, hend⟩

theorem runTimes_succ_of_exec {i : Instr} {n : Nat} {s s1 : State} (h : exec i s = .next s1) :
    runTimes i (n + 1) s = runTimes i n s1 := by
  simp [runTimes, List.replicate_succ, runOps, h]

/-- Events no more than the queued bytes leave it armed. -/
theorem runTimes_txemp_stays_armed (n : Nat) {s : State} (hs : s.Inv) (harm : s.txarm = true)
    (hn : n ≤ s.txq.contents.length) : ∃ t, runTimes .txemp n s = .next t ∧ t.txarm = true := by
  induction n generalizing s with
  | zero => exact ⟨s, rfl, harm⟩
  | succ n ih =>
    obtain ⟨v, vs, hc⟩ := List.exists_cons_of_length_pos (Nat.zero_lt_of_lt hn)
    obtain ⟨w, hw, hexec⟩ := exec_txemp_of_contents hs harm hc
    rw [runTimes_succ_of_exec hexec]
    refine ih (exec_keeps_inv hs hexec) rfl ?_
    rw [hc, List.length_cons] at hn
    rw [lineEnd_txq, hw]
    exact Nat.le_of_succ_le_succ hn

/-- Settles O31: the contents are CNT bytes, sent one per event. -/
theorem armedTransmitEventsDrainAndDisarm : Obligations.ArmedTransmitEventsDrainAndDisarm := by
  intro s hs harm
  obtain ⟨-, -, hwritten, -⟩ := hs.queue .tx
  have hlength : s.txq.contents.length = s.txq.cnt := Queue.contents_length hwritten
  rw [← hlength]
  exact ⟨runFlow_txemp_drains _ hs harm rfl, fun n hn => runTimes_txemp_stays_armed n hs harm hn⟩

end Sys2Proof.Machine
end

section
/-!
The frame slots the framer holds no byte in (42_packet_protocol R129): the framer's reaction to a
byte depends on the slots below FCNT only, and no operation but TRYRX reads a slot at all.
-/

namespace Sys2Proof.Machine

/-! ## The framer from two frames -/

/-- At FCNT = 4 the framer reads the first four slots only. -/
theorem acceptByte_four_congr {f g : Frame} (h : ∀ k : Fin 5, k < 4 → f.get k = g.get k)
    (v : Byte) : acceptByte 4 f v = acceptByte 4 g v := by
  have hset : f.set 4 v = g.set 4 v := Frame.eq_of_get fun k => by
    by_cases hk : k = 4
    · subst hk; rw [Frame.get_set_same, Frame.get_set_same]
    · rw [Frame.get_set_other _ hk, Frame.get_set_other _ hk]
      exact h k (by omega)
  simp only [acceptByte, hset]

/-- From two frames that agree below FCNT the framer counts and answers alike, the frames agree
below the new FCNT, and a packet it completes is the same. -/
theorem acceptByte_congr {c : Fin 5} {f g : Frame} (h : ∀ k, k < c → f.get k = g.get k)
    (v : Byte) :
    (acceptByte c f v).1 = (acceptByte c g v).1 ∧
    (acceptByte c f v).2.2 = (acceptByte c g v).2.2 ∧
    (∀ k, k < (acceptByte c f v).1 →
      (acceptByte c f v).2.1.get k = (acceptByte c g v).2.1.get k) ∧
    ((acceptByte c f v).2.2 = true → (acceptByte c g v).2.1 = (acceptByte c f v).2.1) := by
  by_cases hc : c < 4
  · rw [acceptByte_of_lt hc, acceptByte_of_lt hc]
    refine ⟨rfl, rfl, fun k (hk : k < c + 1) => ?_, nofun⟩
    by_cases hkc : k = c
    · subst hkc; rw [Frame.get_set_same, Frame.get_set_same]
    · rw [Frame.get_set_other _ hkc, Frame.get_set_other _ hkc]
      exact h k (by omega)
  · obtain rfl : c = 4 := by omega
    rw [acceptByte_four_congr h]
    exact ⟨rfl, rfl, fun _ _ => rfl, fun _ => rfl⟩

/-! ## The other operations do not read the frame -/

theorem State.queue_withFrame (s : State) (g : Frame) (q : QSel) :
    ({ s with frame := g } : State).queue q = s.queue q := by
  cases q <;> rfl

theorem State.setQueue_withFrame (s : State) (g : Frame) (q : QSel) (v : Queue) :
    ({ s with frame := g } : State).setQueue q v = { s.setQueue q v with frame := g } := by
  cases q <;> rfl

theorem sendBytes_withFrame (bs : List Byte) {s t : State} {r : Bool}
    (h : sendBytes bs s = .ok (r, t)) (g : Frame) :
    sendBytes bs { s with frame := g } = .ok (r, { t with frame := g }) := by
  induction bs generalizing s r with
  | nil => cases h; rfl
  | cons b bs ih =>
    obtain ⟨r1, s1, rs, hfirst, hrest, rfl⟩ := sendBytes_cons_cases h
    obtain ⟨v, hput, rfl⟩ := sendByte_cases hfirst
    exact sendBytes_cons_of_put (s := { s with frame := g }) hput (ih hrest)

/-- An operation but TRYRX does the same whatever the frame, and carries it along. -/
theorem exec_withFrame {i : Instr} (hi : i ≠ .tryrx) {s s1 : State} (h : exec i s = .next s1)
    (g : Frame) : exec i { s with frame := g } = .next { s1 with frame := g } := by
  cases i with
  | qinit q => cases h; cases q <;> rfl
  | qput q b =>
    obtain ⟨r, v, hput, rfl⟩ := exec_qput_cases h
    rw [← State.queue_withFrame s g] at hput
    rw [exec_qput_of_put hput, State.setQueue_withFrame]
    rfl
  | qget q =>
    obtain ⟨r, v, hget, rfl⟩ := exec_qget_cases h
    rw [← State.queue_withFrame s g] at hget
    rw [exec_qget_of_get hget, State.setQueue_withFrame]
    rfl
  | recvb =>
    obtain ⟨r, v, hget, rfl⟩ := exec_recvb_cases h
    exact exec_qget_of_get (q := .rx) (s := { s with frame := g }) hget
  | sendb b =>
    obtain ⟨r, v, hput, rfl⟩ := exec_sendb_cases h
    exact exec_sendb_of_put (s := { s with frame := g }) hput
  | tryrx => exact absurd rfl hi
  | send b0 b1 b2 b3 =>
    obtain ⟨r, t, hsend, rfl⟩ := exec_send_cases h
    exact exec_send_of_sendBytes (sendBytes_withFrame _ hsend g)
  | rxrdy d =>
    obtain ⟨r, v, hput, rfl⟩ := exec_rxrdy_cases h
    exact exec_rxrdy_of_put (s := { s with frame := g }) hput
  | txemp =>
    obtain ⟨harm, rfl⟩ | ⟨harm, out, v, hget, rfl⟩ := exec_txemp_cases h
    · exact exec_txemp_of_disarmed (s := { s with frame := g }) harm
    · exact exec_txemp_of_armed (s := { s with frame := g }) harm hget
  | rxtx d =>
    obtain ⟨r, v, hput, ⟨harm, rfl⟩ | ⟨harm, out, w, hget, rfl⟩⟩ := exec_rxtx_cases h
    · exact exec_rxtx_of_disarmed (s := { s with frame := g }) hput harm
    · exact exec_rxtx_of_armed (s := { s with frame := g }) hput harm hget

/-! ## One operation from two states -/

theorem exec_tryrx_sameButUnheldSlots {s s1 : State} {g : Frame}
    (hheld : ∀ k, k < s.fcnt → s.frame.get k = g.get k) (h : exec .tryrx s = .next s1) :
    ∃ t1, exec .tryrx { s with frame := g } = .next t1 ∧ SameButUnheldSlots s1 t1 ∧
      s1.response = t1.response ∧ s1.lineOut = t1.lineOut ∧
      (s1.answeredOk = true → t1.frame = s1.frame) := by
  obtain ⟨v, hget, rfl⟩ | ⟨b, v, hget, rfl⟩ := exec_tryrx_cases h
  · obtain ⟨-, hempty, rfl⟩ | ⟨w, hsome, -⟩ := Queue.get_cases hget
    · exact ⟨_, exec_tryrx_of_empty (s := { s with frame := g }) hempty, ⟨rfl, hheld⟩, rfl, rfl,
        nofun⟩
    · cases hsome
  · obtain ⟨hfcnt, hok, hslots, hpacket⟩ := acceptByte_congr hheld b
    refine ⟨_, exec_tryrx_of_byte (s := { s with frame := g }) hget, ⟨?_, hslots⟩, ?_, rfl, hpacket⟩
    · simp [respond, hfcnt, hok]
    · simp [hok]

/-- Settles O41: TRYRX by what the framer reads, the others because they read no slot. -/
theorem noAnswerLineByteOrNewPacketDependsOnUnheldSlots :
    Obligations.NoAnswerLineByteOrNewPacketDependsOnUnheldSlots := by
  rintro i s t s1 ⟨ht, hheld⟩ h
  rw [ht]
  by_cases hi : i = .tryrx
  · subst hi
    obtain ⟨t1, ht1, hsame, hresponse, hline, hpacket⟩ := exec_tryrx_sameButUnheldSlots hheld h
    exact ⟨t1, ht1, hsame, hresponse, hline, fun _ => hpacket⟩
  · obtain ⟨hfcnt, hframe⟩ := exec_keeps_framer hi h
    refine ⟨_, exec_withFrame hi h t.frame, ⟨rfl, ?_⟩, rfl, rfl, fun htryrx => absurd htryrx hi⟩
    rwa [hfcnt, hframe]

end Sys2Proof.Machine
end

section
/-!
Resynchronisation (42_packet_protocol R134): the framer holds the last bytes of the stream it is
fed and tests every window of five in turn. The same holds of any action that hands the framer
the next byte of a stream, of which a poll and a turn of the loop-back wire (R136) are two.
-/

namespace Sys2Proof.Machine

/-! ## The framer on a stream -/

/-- The framer holds the last bytes, at most four, of the first `n` bytes of a stream. -/
def HoldsLast (bs : List Byte) (n : Nat) (c : Fin 5) (f : Frame) : Prop :=
  c.val = min n 4 ∧ ∀ k : Fin 5, k.val < min n 4 → f.get k = bs.getD (n - min n 4 + k.val) 0#8

theorem HoldsLast.zero (bs : List Byte) (f : Frame) : HoldsLast bs 0 0 f :=
  ⟨rfl, fun _ hk => absurd hk (Nat.not_lt_zero _)⟩

/-- From four bytes on FCNT is 4 and the first four slots are the last four bytes. -/
theorem HoldsLast.slots {bs : List Byte} {n : Nat} {c : Fin 5} {f : Frame}
    (h : HoldsLast bs (n + 4) c f) :
    c = 4 ∧ f.command = bs.getD n 0#8 ∧ f.parameter1 = bs.getD (n + 1) 0#8 ∧
    f.parameter2 = bs.getD (n + 2) 0#8 ∧ f.parameter3 = bs.getD (n + 3) 0#8 := by
  obtain ⟨hc, hslots⟩ := h
  rw [Nat.min_eq_right (Nat.le_add_left 4 n)] at hc hslots
  exact ⟨Fin.ext hc, hslots 0 (by decide), hslots 1 (by decide), hslots 2 (by decide),
    hslots 3 (by decide)⟩

/-- A window matches iff the byte that tests it passes the framer's comparison. -/
theorem HoldsLast.windowMatches_iff {bs : List Byte} {n : Nat} {c : Fin 5} {f : Frame}
    (h : HoldsLast bs (n + 4) c f) :
    windowMatches bs (n + 5) ↔
      bs.getD (n + 4) 0#8 = chk f.command f.parameter1 f.parameter2 f.parameter3 := by
  obtain ⟨-, h0, h1, h2, h3⟩ := h.slots
  rw [h0, h1, h2, h3]
  exact and_iff_right (Nat.le_add_left 5 n)

/-- Before the fifth byte the framer holds all bytes, and one more. -/
theorem HoldsLast.place {bs : List Byte} {n : Nat} {c : Fin 5} {f : Frame}
    (h : HoldsLast bs n c f) (hn : n < 4) :
    c < 4 ∧ HoldsLast bs (n + 1) (c + 1) (f.set c (bs.getD n 0#8)) := by
  obtain ⟨hc, hslots⟩ := h
  rw [Nat.min_eq_left (by omega)] at hc hslots
  refine ⟨by omega, by omega, fun k hk => ?_⟩
  rw [Nat.min_eq_left (by omega), Nat.sub_self, Nat.zero_add]
  by_cases hkc : k = c
  · rw [hkc, Frame.get_set_same, hc]
  · rw [Frame.get_set_other f hkc, hslots k (by omega), Nat.sub_self, Nat.zero_add]

/-- A slide drops the oldest of five bytes. -/
theorem HoldsLast.slide {bs : List Byte} {n : Nat} {c : Fin 5} {f : Frame}
    (h : HoldsLast bs (n + 4) c f) :
    HoldsLast bs (n + 5) 4 ⟨f.parameter1, f.parameter2, f.parameter3, bs.getD (n + 4) 0#8,
      bs.getD (n + 4) 0#8⟩ := by
  obtain ⟨-, -, h1, h2, h3⟩ := h.slots
  rw [HoldsLast, Nat.min_eq_right (by omega)]
  refine ⟨rfl, fun k hk => ?_⟩
  match k with
  | 0 => exact h1
  | 1 => exact h2
  | 2 => exact h3
  | 3 => rfl

/-- A byte that completes no matching window is held. -/
theorem HoldsLast.accept {bs : List Byte} {n : Nat} {c : Fin 5} {f : Frame}
    (h : HoldsLast bs n c f) (hno : ¬ windowMatches bs (n + 1)) :
    HoldsLast bs (n + 1) (acceptByte c f (bs.getD n 0#8)).1 (acceptByte c f (bs.getD n 0#8)).2.1 ∧
    (acceptByte c f (bs.getD n 0#8)).2.2 = false := by
  by_cases hn : n < 4
  · obtain ⟨hc, hplaced⟩ := h.place hn
    rw [acceptByte_of_lt hc]
    exact ⟨hplaced, rfl⟩
  · obtain ⟨n, rfl⟩ : ∃ m, n = m + 4 := ⟨n - 4, by omega⟩
    obtain ⟨rfl, -⟩ := h.slots
    rw [acceptByte_of_mismatch (mt h.windowMatches_iff.mpr hno)]
    exact ⟨h.slide, rfl⟩

/-- The byte that completes a matching window completes a packet, which is the window. -/
theorem HoldsLast.accept_match {bs : List Byte} {n : Nat} {c : Fin 5} {f : Frame}
    (h : HoldsLast bs (n + 4) c f) (hmatch : windowMatches bs (n + 5)) :
    ∃ g, acceptByte c f (bs.getD (n + 4) 0#8) = (0, g, true) ∧
      ∀ k : Fin 5, g.get k = bs.getD (n + k.val) 0#8 := by
  obtain ⟨rfl, h0, h1, h2, h3⟩ := h.slots
  refine ⟨_, acceptByte_of_match (h.windowMatches_iff.mp hmatch), fun k => ?_⟩
  match k with
  | 0 => exact h0
  | 1 => exact h1
  | 2 => exact h2
  | 3 => exact h3
  | 4 => rfl

/-! ## An action that hands the framer the next byte -/

/-- An action repeated, stopping at the first that does not answer a next state. -/
def repeated (F : State → Result) : Nat → State → Result
  | 0, s => .next s
  | n + 1, s =>
    match F s with
    | .next s1 => repeated F n s1
    | .fault f => .fault f
    | .refused r => .refused r

theorem repeated_succ_of_next {F : State → Result} {n : Nat} {s s1 : State} (h : F s = .next s1) :
    repeated F (n + 1) s = repeated F n s1 := by
  simp [repeated, h]

theorem repeated_succ_last {F : State → Result} {n : Nat} {s t : State}
    (h : repeated F n s = .next t) : repeated F (n + 1) s = F t := by
  induction n generalizing s with
  | zero =>
    cases h
    cases hF : F t <;> simp [repeated, hF]
  | succ n ih =>
    cases hF : F s with
    | next s1 =>
      rw [repeated_succ_of_next hF] at h ⊢
      exact ih h
    | fault f => simp [repeated, hF] at h
    | refused r => simp [repeated, hF] at h

/-- In a state of the stream `J`, the action hands the framer the next byte of the stream. -/
def FeedsFramer (F : State → Result) (J : List Byte → State → Prop) : Prop :=
  ∀ (v : Byte) (vs : List Byte) (s : State), J (v :: vs) s →
    ∃ t, F s = .next t ∧ J vs t ∧ (t.fcnt, t.frame, t.answeredOk) = acceptByte s.fcnt s.frame v

section feed
variable {F : State → Result} {J : List Byte → State → Prop} (hF : FeedsFramer F J)
  {bs : List Byte} {s : State} (hJ : J bs s) (hfcnt : s.fcnt = 0)
include hF

/-- One more byte, by its number in the stream. -/
theorem FeedsFramer.next_byte {n : Nat} {t : State} (hn : n < bs.length) (hJ : J (bs.drop n) t) :
    ∃ t1, F t = .next t1 ∧ J (bs.drop (n + 1)) t1 ∧
      (t1.fcnt, t1.frame, t1.answeredOk) = acceptByte t.fcnt t.frame (bs.getD n 0#8) := by
  rw [List.drop_eq_getElem_cons hn] at hJ
  rw [List.getD_eq_getElem _ _ hn]
  exact hF _ _ _ hJ

include hJ hfcnt

/-- While no window matches the framer holds the last bytes, and the last answer was ok = 0. -/
theorem FeedsFramer.no_match (n : Nat) (hn : n ≤ bs.length)
    (hno : ∀ m, m ≤ n → ¬ windowMatches bs m) :
    ∃ t, repeated F n s = .next t ∧ J (bs.drop n) t ∧ HoldsLast bs n t.fcnt t.frame ∧
      (1 ≤ n → t.answeredOk = false) := by
  induction n with
  | zero => exact ⟨s, rfl, hJ, hfcnt ▸ HoldsLast.zero bs s.frame, nofun⟩
  | succ n ih =>
    obtain ⟨t, ht, hJt, hold, -⟩ := ih (by omega) fun m hm => hno m (by omega)
    obtain ⟨t1, ht1, hJt1, hacc⟩ := hF.next_byte hn hJt
    have hheld := hold.accept (hno (n + 1) (Nat.le_refl _))
    rw [← hacc] at hheld
    exact ⟨t1, (repeated_succ_last ht).trans ht1, hJt1, hheld.1, fun _ => hheld.2⟩

/-- At the first window that matches the framer delivers it. -/
theorem FeedsFramer.first_match (n : Nat) (hn : n ≤ bs.length) (hmatch : windowMatches bs n)
    (hno : ∀ m, m < n → ¬ windowMatches bs m) :
    ∃ t, repeated F n s = .next t ∧ t.fcnt = 0 ∧ t.answeredOk = true ∧
      ∀ k : Fin 5, t.frame.get k = bs.getD (n - 5 + k.val) 0#8 := by
  obtain ⟨n, rfl⟩ : ∃ m, n = m + 5 := ⟨n - 5, by have := hmatch.1; omega⟩
  obtain ⟨t, ht, hJt, hold, -⟩ :=
    hF.no_match hJ hfcnt (n + 4) (by omega) fun m hm => hno m (by omega)
  obtain ⟨t1, ht1, -, hacc⟩ := hF.next_byte hn hJt
  obtain ⟨g, hpacket, hwindow⟩ := hold.accept_match hmatch
  rw [hpacket] at hacc
  simp only [Prod.mk.injEq] at hacc
  obtain ⟨hzero, rfl, hok⟩ := hacc
  exact ⟨t1, (repeated_succ_last ht).trans ht1, hzero, hok, hwindow⟩

end feed

/-! ## Polls with nothing between -/

theorem runTimes_eq_repeated (i : Instr) (n : Nat) (s : State) :
    runTimes i n s = repeated (exec i) n s := by
  induction n generalizing s with
  | zero => rfl
  | succ n ih =>
    simp only [runTimes, List.replicate_succ, runOps, repeated]
    cases exec i s with
    | next s1 => exact ih s1
    | fault f => rfl
    | refused r => rfl

/-- TRYRX hands the framer the oldest byte of RXQ. -/
theorem exec_tryrx_of_contents {s : State} {v : Byte} {vs : List Byte} (hi : s.rxq.Inv)
    (hc : s.rxq.contents = v :: vs) :
    ∃ t, exec .tryrx s = .next t ∧ t.rxq.contents = vs ∧ t.txq = s.txq ∧ t.txarm = s.txarm ∧
      (t.fcnt, t.frame, t.answeredOk) = acceptByte s.fcnt s.frame v := by
  obtain ⟨w, hget, hw⟩ := Queue.get_of_contents hi hc
  exact ⟨_, exec_tryrx_of_byte hget, hw, rfl, rfl, rfl⟩

theorem exec_tryrx_feedsFramer :
    FeedsFramer (exec .tryrx) fun bs s => s.Inv ∧ s.rxq.contents = bs := by
  rintro v vs s ⟨hs, hc⟩
  obtain ⟨t, h, ht, -, -, hacc⟩ := exec_tryrx_of_contents (hs.queue .rx) hc
  exact ⟨t, h, ⟨exec_keeps_inv hs h, ht⟩, hacc⟩

/-- Settles O40: a poll hands the framer the next byte of the stream. -/
theorem resynchronisationFindsTheFirstMatchingWindow :
    Obligations.ResynchronisationFindsTheFirstMatchingWindow := by
  intro s n hs hfcnt hn
  rw [runTimes_eq_repeated]
  refine ⟨fun hno => ?_, fun hmatch hno => ?_⟩
  · obtain ⟨t, ht, -, ⟨hcount, hslots⟩, hok⟩ :=
      exec_tryrx_feedsFramer.no_match ⟨hs, rfl⟩ hfcnt n hn hno
    exact ⟨t, ht, hcount, hslots, hok⟩
  · exact exec_tryrx_feedsFramer.first_match ⟨hs, rfl⟩ hfcnt n hn hmatch hno

/-! ## The loop-back wire -/

theorem loopBackTimes_eq_repeated (n : Nat) (s : State) :
    loopBackTimes n s = repeated loopBack n s := by
  induction n generalizing s with
  | zero => rfl
  | succ n ih =>
    simp only [loopBackTimes, repeated]
    cases loopBack s with
    | next s1 => exact ih s1
    | fault f => rfl
    | refused r => rfl

/-- RXRDY on an empty RXQ queues its byte. -/
theorem exec_rxrdy_of_empty (d : Byte) {s : State} (hi : s.rxq.Inv) (hempty : s.rxq.cnt = 0) :
    ∃ v, v.contents = [d] ∧ exec (.rxrdy d) s = .next (lineEnd none { s with rxq := v }) := by
  obtain ⟨-, hw, -⟩ := hi.1
  have hput := Queue.put_of_room hw (by omega) d
  refine ⟨_, ?_, exec_rxrdy_of_put hput⟩
  rw [Queue.contents_put hi hput, Queue.contents_empty hempty, List.nil_append]

/-- The wire: armed, the stream in TXQ, nothing waiting in RXQ. -/
def OnTheWire (bs : List Byte) (s : State) : Prop :=
  s.Inv ∧ s.txarm = true ∧ s.txq.contents = bs ∧ s.rxq.cnt = 0

/-- A turn of the wire, from its three operations. -/
theorem loopBack_of_execs {s s1 s2 t : State} {v : Byte} (hsend : exec .txemp s = .next s1)
    (hout : s1.lineOut = some v) (hreceive : exec (.rxrdy v) s1 = .next s2)
    (hpoll : exec .tryrx s2 = .next t) : loopBack s = .next t := by
  simp [loopBack, hsend, hout, runOps, hreceive, hpoll]

/-- A turn of the wire hands the framer the oldest byte of TXQ. -/
theorem loopBack_feedsFramer : FeedsFramer loopBack OnTheWire := by
  rintro v vs s ⟨hs, harm, hc, hempty⟩
  obtain ⟨w, hw, hsend⟩ := exec_txemp_of_contents hs harm hc
  have hs1 := exec_keeps_inv hs hsend
  obtain ⟨x, hx, hreceive⟩ := exec_rxrdy_of_empty v (hs1.queue .rx) hempty
  have hs2 := exec_keeps_inv hs1 hreceive
  obtain ⟨t, hpoll, hrx, htx, harmed, hacc⟩ := exec_tryrx_of_contents (hs2.queue .rx) hx
  have hs3 := exec_keeps_inv hs2 hpoll
  refine ⟨t, loopBack_of_execs hsend rfl hreceive hpoll,
    ⟨hs3, harmed, ?_, Queue.cnt_of_contents_nil (hs3.queue .rx) hrx⟩, hacc⟩
  rw [htx]
  exact hw

/-- SEND into an empty TXQ with room puts its whole frame on the wire. -/
theorem exec_send_onTheWire (a b c d : Byte) {s : State} (hs : s.Inv) (hrx : s.rxq.cnt = 0)
    (htx : s.txq.cnt = 0) (hroom : 5 ≤ s.txq.cap) :
    ∃ s0, exec (.send a b c d) s = .next s0 ∧ OnTheWire (wireFrame a b c d) s0 ∧
      s0.fcnt = s.fcnt ∧ s0.answeredOk = true := by
  have hfree : 5 ≤ s.txq.free := by rwa [Queue.free, htx, Nat.sub_zero]
  have hexec := exec_send_of_inRange (b0 := a) (b1 := b) (b2 := c) (b3 := d) (hs.queue .tx).1
  rw [List.take_of_length_le hfree] at hexec
  obtain ⟨-, -, -, -, hcontents⟩ := Queue.pushed_spec (wireFrame a b c d) (hs.queue .tx) hfree
  refine ⟨_, hexec, ⟨exec_keeps_inv hs hexec, ?_, ?_, hrx⟩, rfl, ?_⟩
  · have hpos : 0 < s.txq.free := Nat.lt_of_lt_of_le (by decide) hfree
    simp [hpos]
  · refine hcontents.trans ?_
    rw [State.queue_tx, Queue.contents_empty htx, List.nil_append]
  · exact decide_eq_true hfree

/-- The windows of a wire frame: the fifth matches and none before it. -/
theorem wireFrame_windows (a b c d : Byte) :
    windowMatches (wireFrame a b c d) 5 ∧ ∀ m, m < 5 → ¬ windowMatches (wireFrame a b c d) m :=
  ⟨⟨Nat.le_refl 5, rfl⟩, fun _ hm h => absurd h.1 (Nat.not_le.mpr hm)⟩

/-- Settles O45: the wire hands the framer the frame, whose first matching window it is. -/
theorem sendThenReceiveReconstructsThePacket :
    Obligations.SendThenReceiveReconstructsThePacket := by
  intro a b c d s hs hfcnt hrx htx hroom
  obtain ⟨s0, hsend, hwire, hfcnt0, hok⟩ := exec_send_onTheWire a b c d hs hrx htx hroom
  obtain ⟨hmatch, hno⟩ := wireFrame_windows a b c d
  have hzero := hfcnt0.trans hfcnt
  refine ⟨s0, hsend, hok, fun n h1 h4 => ?_, ?_⟩
  · rw [loopBackTimes_eq_repeated]
    obtain ⟨t, ht, -, -, hlast⟩ := loopBack_feedsFramer.no_match hwire hzero n
      (Nat.le_succ_of_le h4) fun m hm => hno m (by omega)
    exact ⟨t, ht, hlast h1⟩
  · rw [loopBackTimes_eq_repeated]
    obtain ⟨t, ht, hend, hanswer, hwindow⟩ :=
      loopBack_feedsFramer.first_match hwire hzero 5 (Nat.le_refl 5) hmatch hno
    refine ⟨t, ht, hanswer, hend, Frame.eq_of_get fun k => ?_⟩
    rw [hwindow k]
    match k with
    | 0 | 1 | 2 | 3 | 4 => rfl

end Sys2Proof.Machine
end
